-- ==== Sys2Proof/Word.lean ====
section
/-! DEFINITION. The data word of the CORE and the narrowing `mod256` of the spec's notation (00_scope.md R6, R9). -/

namespace Sys2Proof

/-- `WORD` (R6): the contents of a register, of a memory cell or of an operand byte, 0..255. -/
abbrev Byte := BitVec 8

/-- `mod256(v)` (R9): an integer kept modulo 256, so that `mod256 (-1)` is 255. -/
def mod256 (v : Int) : Byte := BitVec.ofInt 8 v

end Sys2Proof
end

