-- ==== Sys2Proof/Syntax.lean ====
section
/-! DEFINITION. The registers (10_state.md R21 to R25) and the 34 instructions (00_scope.md R2, 30_encoding.md R71) as
syntax: one constructor per row of spec/opcode_table.json, in the table's order. An operand is the whole operand byte
(R74, R75): the check that a register operand is below 8 belongs to the step (R104), not to the encoding. -/

namespace Sys2Proof

/-- The register file's names, R0 to R7 (R21). -/
inductive Reg where
  | r0 | r1 | r2 | r3 | r4
  /-- R5, by convention the interrupt mask IM (R23). -/
  | r5
  /-- R6, by convention the interrupt status IS (R24). -/
  | r6
  /-- R7, by convention the stack pointer SP (R25). -/
  | r7
  deriving DecidableEq, Repr

/-- The instructions; `a` and `b` are register operand bytes and `imm` is a literal (R11, R70, R76). -/
inductive Instr where
  | nop
  | hlt
  | ret
  | iret
  | push (a : Byte)
  | pop (a : Byte)
  | prn (a : Byte)
  | pra (a : Byte)
  | call (a : Byte)
  | int (a : Byte)
  | jmp (a : Byte)
  | jeq (a : Byte)
  | jne (a : Byte)
  | jgt (a : Byte)
  | jlt (a : Byte)
  | jle (a : Byte)
  | jge (a : Byte)
  | inc (a : Byte)
  | dec (a : Byte)
  | not (a : Byte)
  | ldi (a imm : Byte)
  | ld (a b : Byte)
  | st (a b : Byte)
  | add (a b : Byte)
  | sub (a b : Byte)
  | mul (a b : Byte)
  | div (a b : Byte)
  | mod (a b : Byte)
  | cmp (a b : Byte)
  | and (a b : Byte)
  | or (a b : Byte)
  | xor (a b : Byte)
  | shl (a b : Byte)
  | shr (a b : Byte)
  deriving DecidableEq, Repr

end Sys2Proof
end

