-- ==== Sys2Proof/Decode.lean ====
section
/-! DEFINITION. The Instruction Table, the decoder and the encoder (30_encoding.md R70 to R80, 40_cycle.md R103), and the
naming of registers by operand bytes (R74). -/

namespace Sys2Proof

/-! ### Register operands -/

/-- The register a register operand byte names: the whole byte is the index, and 8 or more names none (R26, R74). -/
def Reg.ofByte? (b : Byte) : Option Reg :=
  match b.toNat with
  | 0 => some .r0
  | 1 => some .r1
  | 2 => some .r2
  | 3 => some .r3
  | 4 => some .r4
  | 5 => some .r5
  | 6 => some .r6
  | 7 => some .r7
  | _ => none

/-- The operand byte that names a register (R74). -/
def Reg.toByte : Reg → Byte
  | .r0 => 0x00#8
  | .r1 => 0x01#8
  | .r2 => 0x02#8
  | .r3 => 0x03#8
  | .r4 => 0x04#8
  | .r5 => 0x05#8
  | .r6 => 0x06#8
  | .r7 => 0x07#8

/-! ### The Instruction Table -/

/-- The four instruction formats (R70), each with the instruction its operand bytes make. -/
inductive Format where
  /-- `F0`: the opcode byte alone. -/
  | f0 (i : Instr)
  /-- `F1R`: one register operand. -/
  | f1r (make : Byte → Instr)
  /-- `F2RR`: two register operands. -/
  | f2rr (make : Byte → Byte → Instr)
  /-- `F2RI`: a register operand and an 8-bit literal. -/
  | f2ri (make : Byte → Byte → Instr)

/-- The operand count `n` of a format (R70). -/
def Format.operands : Format → Nat
  | .f0 _ => 0
  | .f1r _ => 1
  | .f2rr _ => 2
  | .f2ri _ => 2

/-- A row of the Instruction Table (R71): opcode byte, ALU-class flag, format with the operation it makes. -/
structure TableRow where
  opcode : Byte
  alu : Bool
  format : Format

/-- The parameter `OPCODE_MAP`: an Instruction Table (R6, R36, D2). Decoding takes it as an argument. -/
abbrev OpcodeMap := List TableRow

/-- Opcodes without operand (R71, R79). -/
def tableNoOperand : List TableRow := [
  ⟨0x00#8, false, .f0 .nop⟩,
  ⟨0x01#8, false, .f0 .hlt⟩,
  ⟨0x11#8, false, .f0 .ret⟩,
  ⟨0x13#8, false, .f0 .iret⟩]

/-- One-operand stack and output operations (R71, R79). -/
def tableStackOutput : List TableRow := [
  ⟨0x45#8, false, .f1r .push⟩,
  ⟨0x46#8, false, .f1r .pop⟩,
  ⟨0x47#8, false, .f1r .prn⟩,
  ⟨0x48#8, false, .f1r .pra⟩]

/-- One-operand control transfers and INT (R71, R79). -/
def tableControl : List TableRow := [
  ⟨0x50#8, false, .f1r .call⟩,
  ⟨0x52#8, false, .f1r .int⟩,
  ⟨0x54#8, false, .f1r .jmp⟩,
  ⟨0x55#8, false, .f1r .jeq⟩,
  ⟨0x56#8, false, .f1r .jne⟩,
  ⟨0x57#8, false, .f1r .jgt⟩,
  ⟨0x58#8, false, .f1r .jlt⟩,
  ⟨0x59#8, false, .f1r .jle⟩,
  ⟨0x5A#8, false, .f1r .jge⟩]

/-- Unary ALU operations (R71, R79). -/
def tableUnaryAlu : List TableRow := [
  ⟨0x65#8, true, .f1r .inc⟩,
  ⟨0x66#8, true, .f1r .dec⟩,
  ⟨0x69#8, true, .f1r .not⟩]

/-- Two-operand data movements (R71, R79). -/
def tableData : List TableRow := [
  ⟨0x82#8, false, .f2ri .ldi⟩,
  ⟨0x83#8, false, .f2rr .ld⟩,
  ⟨0x84#8, false, .f2rr .st⟩]

/-- Binary ALU operations (R71, R79). -/
def tableBinaryAlu : List TableRow := [
  ⟨0xA0#8, true, .f2rr .add⟩,
  ⟨0xA1#8, true, .f2rr .sub⟩,
  ⟨0xA2#8, true, .f2rr .mul⟩,
  ⟨0xA3#8, true, .f2rr .div⟩,
  ⟨0xA4#8, true, .f2rr .mod⟩,
  ⟨0xA7#8, true, .f2rr .cmp⟩,
  ⟨0xA8#8, true, .f2rr .and⟩,
  ⟨0xAA#8, true, .f2rr .or⟩,
  ⟨0xAB#8, true, .f2rr .xor⟩,
  ⟨0xAC#8, true, .f2rr .shl⟩,
  ⟨0xAD#8, true, .f2rr .shr⟩]

/-- The Instruction Table, the spec's default of the parameter `OPCODE_MAP` (R36, R71, D2). UNVERIFIED, unsafe: log
entry 1. -/
def instructionTable : OpcodeMap :=
  tableNoOperand ++ tableStackOutput ++ tableControl ++ tableUnaryAlu ++ tableData ++ tableBinaryAlu

/-- Another `OPCODE_MAP` with the same operations and operand counts: each opcode byte of the default replaced by its image
under `f` (D2 admits every such map with `f` injective). -/
def renamedTable (f : Byte → Byte) : OpcodeMap :=
  instructionTable.map (fun row => { row with opcode := f row.opcode })

/-- Decode of an opcode byte in a table: its row, or a miss (R103). -/
def lookupOpcode (op : Byte) (table : OpcodeMap := instructionTable) : Option TableRow :=
  table.find? (fun row => row.opcode == op)

/-! ### The decoder -/

/-- Why bytes spell no instruction. -/
inductive DecodeError where
  /-- There is no opcode byte. -/
  | noOpcode
  /-- The opcode byte has no row in the table (R80). -/
  | unknownOpcode (op : Byte)
  /-- Operand byte `k` (1 or 2) of the opcode `op` is missing (R102). -/
  | noOperand (op : Byte) (k : Nat)
  deriving DecidableEq, Repr

/-- The instruction a format makes of the bytes after its opcode `op`, and the bytes left (R70). -/
def Format.decode (op : Byte) : Format → List Byte → Except DecodeError (Instr × List Byte)
  | .f0 i, rest => .ok (i, rest)
  | .f1r make, a :: rest => .ok (make a, rest)
  | .f2rr make, a :: b :: rest => .ok (make a b, rest)
  | .f2ri make, a :: imm :: rest => .ok (make a imm, rest)
  | .f1r _, [] => .error (.noOperand op 1)
  | .f2rr _, [] => .error (.noOperand op 1)
  | .f2ri _, [] => .error (.noOperand op 1)
  | .f2rr _, [_] => .error (.noOperand op 2)
  | .f2ri _, [_] => .error (.noOperand op 2)

/-- The decoder, total on any bytes: the instruction the first bytes spell and the bytes after it, or why they spell
none. The opcode is looked up, in the `OPCODE_MAP` given, before any operand byte is asked for (R102, R103, R248). -/
def decode (bytes : List Byte) (table : OpcodeMap := instructionTable) : Except DecodeError (Instr × List Byte) :=
  match bytes with
  | [] => .error .noOpcode
  | op :: rest =>
    match lookupOpcode op table with
    | none => .error (.unknownOpcode op)
    | some row => row.format.decode op rest

/-! ### The encoder -/

/-- The opcode byte of an instruction in the default `OPCODE_MAP` (R71). -/
def Instr.opcode : Instr → Byte
  | .nop => 0x00#8
  | .hlt => 0x01#8
  | .ret => 0x11#8
  | .iret => 0x13#8
  | .push _ => 0x45#8
  | .pop _ => 0x46#8
  | .prn _ => 0x47#8
  | .pra _ => 0x48#8
  | .call _ => 0x50#8
  | .int _ => 0x52#8
  | .jmp _ => 0x54#8
  | .jeq _ => 0x55#8
  | .jne _ => 0x56#8
  | .jgt _ => 0x57#8
  | .jlt _ => 0x58#8
  | .jle _ => 0x59#8
  | .jge _ => 0x5A#8
  | .inc _ => 0x65#8
  | .dec _ => 0x66#8
  | .not _ => 0x69#8
  | .ldi _ _ => 0x82#8
  | .ld _ _ => 0x83#8
  | .st _ _ => 0x84#8
  | .add _ _ => 0xA0#8
  | .sub _ _ => 0xA1#8
  | .mul _ _ => 0xA2#8
  | .div _ _ => 0xA3#8
  | .mod _ _ => 0xA4#8
  | .cmp _ _ => 0xA7#8
  | .and _ _ => 0xA8#8
  | .or _ _ => 0xAA#8
  | .xor _ _ => 0xAB#8
  | .shl _ _ => 0xAC#8
  | .shr _ _ => 0xAD#8

/-- The operand bytes of an instruction in the order they are stored (R54, R70). -/
def Instr.operandBytes : Instr → List Byte
  | .nop | .hlt | .ret | .iret => []
  | .push a | .pop a | .prn a | .pra a | .call a | .int a => [a]
  | .jmp a | .jeq a | .jne a | .jgt a | .jlt a | .jle a | .jge a => [a]
  | .inc a | .dec a | .not a => [a]
  | .ldi a imm => [a, imm]
  | .ld a b | .st a b => [a, b]
  | .add a b | .sub a b | .mul a b | .div a b | .mod a b | .cmp a b => [a, b]
  | .and a b | .or a b | .xor a b | .shl a b | .shr a b => [a, b]

/-- The size of an instruction: opcode size plus operand count (R73). -/
def Instr.size (i : Instr) : Nat := 1 + i.operandBytes.length

/-- The bytes of an instruction at ascending addresses (R54, R70). -/
def encode (i : Instr) : List Byte := i.opcode :: i.operandBytes

/-! ### Words numbered as the opcode table numbers them -/

/-- The longest instruction, in bytes (R70). -/
def maxInstrBytes : Nat := 3

/-- The first `maxInstrBytes` bytes of an instruction whose lowest `nbits` bits are `w`, lowest byte first; every bit
above `nbits` is 0. -/
def tableWordBytes (nbits w : Nat) : List Byte :=
  (List.range maxInstrBytes).map (fun k => BitVec.ofNat 8 ((w % 2 ^ nbits) / 2 ^ (8 * k)))

/-- The instruction the decoder reads from the table word `w` of `nbits` bits. -/
def decodeTableWord (nbits w : Nat) : Option Instr :=
  match decode (tableWordBytes nbits w) with
  | .ok (i, _) => some i
  | .error _ => none

end Sys2Proof
end

