-- ==== Sys2Proof/Config.lean ====
section
/-! DEFINITION. What the spec fixes as implementation parameters (00_scope.md R6), each at the value the spec states or at
the default the spec gives it, and `Params`, the argument by which the machine takes the five values R6 calls parameters.
The default of `OPCODE_MAP` is the table `instructionTable` of Decode.lean. -/

namespace Sys2Proof

/-- `MEM_SIZE` (R6, R50): addresses 0..255 exist. -/
def Config.memSize : Nat := 256

/-- What a cell nothing has written reads as: memory is "zero-initialized at CPU construction" (R39, R60). -/
def Config.memReset : Byte := 0x00#8

/-- `REG_RESET` (R6, D3), the spec's default. UNVERIFIED, unsafe: log entry 2. -/
def Config.regReset : Byte := 0x00#8

/-- `SP_INIT` (R6, D4), the spec's default. UNVERIFIED, unsafe: log entry 3. -/
def Config.spInit : Byte := 0xF4#8

/-- The entry point (R39, R271, D5). UNVERIFIED, unsafe: log entry 4. -/
def Config.pcReset : Nat := 0

/-- `INT_RECORD` (R194, R195, D19), the spec's default: interrupt number `n` below 8 sets bit `n` of IS, any other number
finds no capacity. UNVERIFIED, unsafe: log entry 10. -/
def Config.intRecord (is n : Byte) : Byte :=
  if n.toNat < 8 then is ||| (1#8 <<< n.toNat) else is

/-- `IRET_RESTORES_FL` (R197, D20), the spec's default. UNVERIFIED, unsafe: log entry 11. -/
def Config.iretRestoresFl : Bool := false

/-- The parameters of R6, each with its stated default: `{}` is the machine at the defaults, and `{ spInit := v }` the one
with that value alone another. -/
structure Params where
  /-- `OPCODE_MAP` (R71, D2). -/
  opcodeMap : OpcodeMap := instructionTable
  /-- `SP_INIT`, the reset value of R7 (D4). -/
  spInit : Byte := Config.spInit
  /-- `REG_RESET`, the reset value of R0 to R6 (D3). -/
  regReset : Byte := Config.regReset
  /-- `INT_RECORD`, what INT makes of IS and the interrupt number (R195, D19). -/
  intRecord : Byte → Byte → Byte := Config.intRecord
  /-- `IRET_RESTORES_FL` (R197, D20). -/
  iretRestoresFl : Bool := Config.iretRestoresFl

end Sys2Proof
end

