-- ==== Sys2Proof/Machine/State.lean ====
section
/-! DEFINITION. The whole architectural state of the CORE (10_state.md R20 to R39) as plain data, the reasons a step can
stop without a next state, and the state after reset. -/

namespace Sys2Proof.Machine

/-- Memory (R50) as its cells that differ from `Config.memReset`, addresses strictly rising (log entry 9). -/
abbrev Memory := List Host.Cell

/-- The register file: eight bytes (R21). -/
structure Regs where
  r0 : Byte
  r1 : Byte
  r2 : Byte
  r3 : Byte
  r4 : Byte
  /-- IM (R23). -/
  r5 : Byte
  /-- IS (R24). -/
  r6 : Byte
  /-- SP (R25). -/
  r7 : Byte
  deriving DecidableEq, Repr

/-- FL: Equal, Greater-than and Less-than (R31). -/
structure Flags where
  e : Bool
  g : Bool
  l : Bool
  deriving DecidableEq, Repr

/-- The two run-states (R33). -/
inductive RunState where
  | running
  | halted
  deriving DecidableEq, Repr

/-- The kinds of exception a step raises (R34, R240). -/
inductive ExceptionKind where
  /-- The fetched byte has no table entry (R243). -/
  | unknownOpcode
  /-- A fetch outside 0..255, or an invalid register index (R244). -/
  | addressingFault
  /-- Division or modulo by a zero-valued register (R245). -/
  | arithmeticError
  deriving DecidableEq, Repr

/-- The detail of a fault record (R34, R243 to R245). DESIGN CHOICE, safe: log entry 8. -/
inductive Detail where
  /-- UnknownOpcode has none. -/
  | none
  /-- The out-of-range fetch address. -/
  | address (a : Nat)
  /-- The operand byte that names no register. -/
  | registerIndex (b : Byte)
  /-- The register that held the divisor 0. -/
  | divisor (r : Reg)
  deriving DecidableEq, Repr

/-- `Fault(kind, opcode, fpc, detail)` (R34); `opcode` is none when the opcode fetch itself faulted. -/
structure FaultRecord where
  kind : ExceptionKind
  opcode : Option Byte
  fpc : Nat
  detail : Detail
  deriving DecidableEq, Repr

/-- Why the CORE is HALTED (R34); `none` while it is RUNNING. -/
inductive HaltReason where
  | none
  | hlt
  | fault (r : FaultRecord)
  deriving DecidableEq, Repr

/-- The kinds of output event (R7). -/
inductive OutKind where
  | prn
  | pra
  deriving DecidableEq, Repr

/-- `Out(kind, v)` (R7, R35). -/
structure OutEvent where
  kind : OutKind
  value : Byte
  deriving DecidableEq, Repr

/-- The state aggregate (R20). -/
structure State where
  /-- Memory (R50). -/
  mem : Memory
  /-- R0 to R7 (R21). -/
  x : Regs
  /-- The program counter, 0..256 (R28 to R30, log entry 5). -/
  pc : Nat
  /-- FL (R31). -/
  fl : Flags
  /-- The run-state (R33). -/
  run : RunState
  /-- The halt reason and fault record (R34). -/
  why : HaltReason
  /-- The events handed to the output port, oldest first (R35). -/
  out : List OutEvent
  deriving DecidableEq, Repr

/-- Why a step has no next state. The CORE's own exceptions are next states (R241), not these. -/
inductive Fault where
  /-- Raised by `step` alone, when the run-state is HALTED: "From HALTED there is no step" (R33, R101). Safe (log
  entry 6). -/
  | halted
  deriving DecidableEq, Repr

/-- Why an instruction has no meaning in the model. -/
inductive Refusal where
  /-- Raised by an arm of `exec` whose instruction has no meaning yet; no arm does. Safe. -/
  | notModelled (mnemonic : String)
  deriving DecidableEq, Repr

/-- The machine right after construction, the only reset, with no program loaded (R39, R270, R271), for the parameters
`SP_INIT` and `REG_RESET` given (R6). -/
def State.resetWith (p : Params := {}) : State where
  mem := []
  x :=
    { r0 := p.regReset
      r1 := p.regReset
      r2 := p.regReset
      r3 := p.regReset
      r4 := p.regReset
      r5 := p.regReset
      r6 := p.regReset
      r7 := p.spInit }
  pc := Config.pcReset
  fl := { e := false, g := false, l := false }
  run := .running
  why := .none
  out := []

/-- The state after reset at the parameters' defaults. -/
def State.reset : State := State.resetWith

end Sys2Proof.Machine
end

