-- ==== Sys2Proof/Machine/Flags.lean ====
section
/-! DEFINITION. The flag computation of CMP and the conditions of the six conditional jumps (41_alu.md R134,
42_control_flow.md R162 to R167). -/

namespace Sys2Proof.Machine

/-- CMP's flags: unsigned comparison, exactly one of E, G, L (R134, C1). -/
def compareFlags (first second : Byte) : Flags where
  e := decide (first = second)
  g := decide (second.toNat < first.toNat)
  l := decide (first.toNat < second.toNat)

/-- JEQ's condition: E (R162). -/
def Flags.eq (f : Flags) : Bool := f.e

/-- JNE's condition: not E (R163). -/
def Flags.ne (f : Flags) : Bool := !f.e

/-- JGT's condition: G (R164). -/
def Flags.gt (f : Flags) : Bool := f.g

/-- JLT's condition: L (R165). -/
def Flags.lt (f : Flags) : Bool := f.l

/-- JLE's condition: L or E (R166). -/
def Flags.le (f : Flags) : Bool := f.l || f.e

/-- JGE's condition: G or E (R167). -/
def Flags.ge (f : Flags) : Bool := f.g || f.e

end Sys2Proof.Machine
end

