-- ==== Sys2Proof/Machine/Ops.lean ====
section
/-! DEFINITION. The named operations over memory, registers, pc, output and run-state, taking an exception, and the
return from interrupt: the primitives of the spec's pseudocode (00_scope.md R10) that every meaning is built from. -/

namespace Sys2Proof.Machine

/-! ### Memory (20_memory.md) -/

/-- The byte at an address: the listed one, or what an unlisted cell holds (R39, R60). -/
def Memory.byteAt : Memory → Nat → Byte
  | [], _ => Config.memReset
  | (b, v) :: rest, a => if b = a then v else Memory.byteAt rest a

/-- A cell in front of cells at higher addresses, left out when it holds what an unlisted cell holds. -/
def Memory.consCell (a : Nat) (v : Byte) (rest : Memory) : Memory :=
  if v = Config.memReset then rest else (a, v) :: rest

/-- Memory with the byte at one address replaced, in canonical form again. -/
def Memory.put : Memory → Nat → Byte → Memory
  | [], a, v => Memory.consCell a v []
  | (b, w) :: rest, a, v =>
    if a < b then Memory.consCell a v ((b, w) :: rest)
    else if a = b then Memory.consCell a v rest
    else (b, w) :: Memory.put rest a v

/-- `MemRead(a, 1)` (R10, R51); none where the address does not exist, which raises AddressingFault. -/
def Memory.read? (m : Memory) (a : Nat) : Option Byte :=
  if a < Config.memSize then some (m.byteAt a) else none

/-- `MemWrite(a, 1, v)` (R10, R51); none where the address does not exist. -/
def Memory.write? (m : Memory) (a : Nat) (v : Byte) : Option Memory :=
  if a < Config.memSize then some (m.put a v) else none

/-- The bytes at ascending addresses from `a`, at most `n`, up to the first address that does not exist (R54, R102). -/
def Memory.bytesFrom (m : Memory) (a : Nat) : Nat → List Byte
  | 0 => []
  | n + 1 =>
    match m.read? a with
    | none => []
    | some b => b :: Memory.bytesFrom m (a + 1) n

/-- The canonical form: addresses exist and strictly rise, and no cell holds what an unlisted cell holds (log entry 9). -/
abbrev Memory.wf (m : Memory) : Prop :=
  m.Pairwise (fun p q => p.1 < q.1) ∧ ∀ p ∈ m, p.1 < Config.memSize ∧ p.2 ≠ Config.memReset

/-! ### The register file (10_state.md R21, R22, R27) -/

/-- `x[r]`. -/
def Regs.get (x : Regs) : Reg → Byte
  | .r0 => x.r0
  | .r1 => x.r1
  | .r2 => x.r2
  | .r3 => x.r3
  | .r4 => x.r4
  | .r5 => x.r5
  | .r6 => x.r6
  | .r7 => x.r7

/-- `x[r] <- v`; no register is hardwired (R22). -/
def Regs.set (x : Regs) (r : Reg) (v : Byte) : Regs :=
  match r with
  | .r0 => { x with r0 := v }
  | .r1 => { x with r1 := v }
  | .r2 => { x with r2 := v }
  | .r3 => { x with r3 := v }
  | .r4 => { x with r4 := v }
  | .r5 => { x with r5 := v }
  | .r6 => { x with r6 := v }
  | .r7 => { x with r7 := v }

/-! ### The state -/

/-- The state with one register written. -/
def State.setReg (s : State) (r : Reg) (v : Byte) : State := { s with x := s.x.set r v }

/-- A data read: the byte at an 8-bit address, which always exists (R52). -/
def State.memAt (s : State) (a : Byte) : Byte := s.mem.byteAt a.toNat

/-- A data write at an 8-bit address, which always exists (R52). -/
def State.setMem (s : State) (a v : Byte) : State := { s with mem := s.mem.put a.toNat v }

/-- FL replaced (R31). -/
def State.setFlags (s : State) (f : Flags) : State := { s with fl := f }

/-- The default advance past an instruction of `n` bytes (R73); the pc does not wrap (R30). -/
def State.advance (s : State) (n : Nat) : State := { s with pc := s.pc + n }

/-- An explicit target assignment; targets are 8-bit values (R28, R160). -/
def State.jumpTo (s : State) (t : Byte) : State := { s with pc := t.toNat }

/-- `emit(kind, v)` (R10, R35, R214). -/
def State.emit (s : State) (k : OutKind) (v : Byte) : State :=
  { s with out := s.out ++ [{ kind := k, value := v }] }

/-- `halt()` (R10, R222): the pc stays. -/
def State.halt (s : State) : State := { s with run := .halted, why := .hlt }

/-! ### Taking an exception (60_exceptions.md R240 to R242) -/

/-- The pc after an exception of an instruction at `fpc` (R242). -/
def pcAfterException (k : ExceptionKind) (fpc : Nat) : Nat :=
  match k with
  | .unknownOpcode => fpc
  | .addressingFault => fpc
  | .arithmeticError => fpc + 3

/-- Taking an exception: HALTED with the fault record, the pc as R242 says, and nothing else (R241). There is no handler:
every exception is fatal (R240, R249). -/
def State.takeException (s : State) (k : ExceptionKind) (opcode : Option Byte) (d : Detail) : State :=
  { s with
    run := .halted
    why := .fault { kind := k, opcode := opcode, fpc := s.pc, detail := d }
    pc := pcAfterException k s.pc }

/-! ### The stack (43_stack_interrupt.md R190) -/

/-- SP, the register R7 (R25). -/
def State.sp (s : State) : Byte := s.x.get .r7

/-- SP decremented modulo 256 (R25, R190). -/
def State.decSp (s : State) : State := s.setReg .r7 (s.sp - 1#8)

/-- SP incremented modulo 256 (R25, R190). -/
def State.incSp (s : State) : State := s.setReg .r7 (s.sp + 1#8)

/-- The address a push writes: SP after its decrement (R190). -/
def State.pushAddr (s : State) : Byte := s.decSp.sp

/-- A push: SP is decremented, then the byte is written at the new SP. The byte is taken from the state with SP already
decremented (R168, R191, D16). -/
def State.push (s : State) (value : State → Byte) : State :=
  s.decSp.setMem s.decSp.sp (value s.decSp)

/-- A pop into a register: the register takes the byte at SP, then SP is incremented; a pop into R7 increments the popped
value (R192, D16). -/
def State.popReg (s : State) (r : Reg) : State := (s.setReg r (s.memAt s.sp)).incSp

/-- A pop into the pc (R169, R197). -/
def State.popPc (s : State) : State := (s.jumpTo (s.memAt s.sp)).incSp

/-! ### Interrupt bookkeeping (43_stack_interrupt.md R194 to R197) -/

/-- INT's effect on IS for the parameter `INT_RECORD` = `record`: `x[6] <- INT_RECORD(x[6], x[a])` (R195). -/
def State.recordInterrupt (s : State) (record : Byte → Byte → Byte) (r : Reg) : State :=
  s.setReg .r6 (record (s.x.get .r6) (s.x.get r))

/-- The flags of the packed byte `0b00000LGE` (R31). -/
def Flags.unpack (f : Byte) : Flags := { e := f.getLsbD 0, g := f.getLsbD 1, l := f.getLsbD 2 }

/-- A pop of the packed flags byte into FL (R197, only when `IRET_RESTORES_FL`). -/
def State.popFlags (s : State) : State := (s.setFlags (Flags.unpack (s.memAt s.sp))).incSp

/-- The registers IRET restores, in its order (R197, D20). -/
def restoreOrder : List Reg := [.r6, .r5, .r4, .r3, .r2, .r1, .r0]

/-- The return from interrupt for the parameter `IRET_RESTORES_FL` = `restoresFl`: R6 down to R0, FL if the parameter says
so, and the pc are popped (R197). No mode and no enable is restored: there is none (R250, D21). -/
def State.returnFromInterrupt (s : State) (restoresFl : Bool) : State :=
  let regs := restoreOrder.foldl State.popReg s
  let flags := if restoresFl then regs.popFlags else regs
  flags.popPc

end Sys2Proof.Machine
end

