-- ==== Sys2Proof/Machine/Operands.lean ====
section
/-! DEFINITION. The operand forms (30_encoding.md R70, R76) with the register-index check that precedes every effect
(10_state.md R26, 40_cycle.md R104). LDI's literal needs no operation: it is the operand byte itself (R75). -/

namespace Sys2Proof.Machine

/-- The outcome of a step or of a meaning. -/
abbrev Result := Host.Outcome State Fault Refusal

/-- A register operand of an instruction with opcode `op`: the effect on the register it names, or AddressingFault with
the operand byte as detail (R26, R104, R244). -/
def State.withReg (s : State) (op a : Byte) (effect : Reg → State) : State :=
  match Reg.ofByte? a with
  | some r => effect r
  | none => s.takeException .addressingFault (some op) (.registerIndex a)

/-- Two register operands, `a` checked before `b` and both before the effect (R104, R248). -/
def State.withRegs (s : State) (op a b : Byte) (effect : Reg → Reg → State) : State :=
  s.withReg op a (fun ra => s.withReg op b (fun rb => effect ra rb))

end Sys2Proof.Machine
end

