-- ==== Sys2Proof/Machine/Alu.lean ====
section
/-! DEFINITION. The ALU-class instructions (41_alu.md). Results are 8 bits and wrap (R120, R135); FL is written by CMP
alone. `op` is the opcode byte fetched, for a fault record; its default is the instruction's own in the default
`OPCODE_MAP`. -/

namespace Sys2Proof.Machine

/-! ### Shared shapes -/

/-- A binary operation: both registers are read, the result goes to the first, the pc advances (R120). -/
def State.aluBinary (s : State) (i : Instr) (a b : Byte) (f : Byte → Byte → Byte) (op : Byte := i.opcode) : State :=
  s.withRegs op a b (fun ra rb => (s.setReg ra (f (s.x.get ra) (s.x.get rb))).advance i.size)

/-- A binary operation whose second value may not be 0: ArithmeticError with the divisor's register, the first register
unchanged (R124, R125, R245); else as any binary operation. -/
def State.aluDivide (s : State) (i : Instr) (a b : Byte) (f : Byte → Byte → Byte) (op : Byte := i.opcode) : State :=
  s.withRegs op a b (fun ra rb =>
    if s.x.get rb = 0#8 then s.takeException .arithmeticError (some op) (.divisor rb)
    else (s.setReg ra (f (s.x.get ra) (s.x.get rb))).advance i.size)

/-- A unary operation in place (R120, R131). -/
def State.aluUnary (s : State) (i : Instr) (a : Byte) (f : Byte → Byte) (op : Byte := i.opcode) : State :=
  s.withReg op a (fun ra => (s.setReg ra (f (s.x.get ra))).advance i.size)

/-! ### Binary operations -/

/-- ADD (R121). -/
def execAdd (a b : Byte) (s : State) (op : Byte := Instr.opcode (.add a b)) : Result :=
  .next (s.aluBinary (.add a b) a b (fun x y => x + y) op)

/-- SUB (R122). -/
def execSub (a b : Byte) (s : State) (op : Byte := Instr.opcode (.sub a b)) : Result :=
  .next (s.aluBinary (.sub a b) a b (fun x y => x - y) op)

/-- MUL, the low byte of the product (R123). -/
def execMul (a b : Byte) (s : State) (op : Byte := Instr.opcode (.mul a b)) : Result :=
  .next (s.aluBinary (.mul a b) a b (fun x y => x * y) op)

/-- DIV, unsigned (R124). -/
def execDiv (a b : Byte) (s : State) (op : Byte := Instr.opcode (.div a b)) : Result :=
  .next (s.aluDivide (.div a b) a b (fun x y => x / y) op)

/-- MOD, unsigned (R125). -/
def execMod (a b : Byte) (s : State) (op : Byte := Instr.opcode (.mod a b)) : Result :=
  .next (s.aluDivide (.mod a b) a b (fun x y => x % y) op)

/-- AND (R126). -/
def execAnd (a b : Byte) (s : State) (op : Byte := Instr.opcode (.and a b)) : Result :=
  .next (s.aluBinary (.and a b) a b (fun x y => x &&& y) op)

/-- OR (R127). -/
def execOr (a b : Byte) (s : State) (op : Byte := Instr.opcode (.or a b)) : Result :=
  .next (s.aluBinary (.or a b) a b (fun x y => x ||| y) op)

/-- XOR (R128). -/
def execXor (a b : Byte) (s : State) (op : Byte := Instr.opcode (.xor a b)) : Result :=
  .next (s.aluBinary (.xor a b) a b (fun x y => x ^^^ y) op)

/-- SHL by the whole 8-bit amount (R129). -/
def execShl (a b : Byte) (s : State) (op : Byte := Instr.opcode (.shl a b)) : Result :=
  .next (s.aluBinary (.shl a b) a b (fun x y => x <<< y.toNat) op)

/-- SHR, logical, by the whole 8-bit amount (R130). -/
def execShr (a b : Byte) (s : State) (op : Byte := Instr.opcode (.shr a b)) : Result :=
  .next (s.aluBinary (.shr a b) a b (fun x y => x >>> y.toNat) op)

/-! ### Unary operations -/

/-- INC (R131). -/
def execInc (a : Byte) (s : State) (op : Byte := Instr.opcode (.inc a)) : Result :=
  .next (s.aluUnary (.inc a) a (fun x => x + 1#8) op)

/-- DEC (R132). -/
def execDec (a : Byte) (s : State) (op : Byte := Instr.opcode (.dec a)) : Result :=
  .next (s.aluUnary (.dec a) a (fun x => x - 1#8) op)

/-- NOT (R133). -/
def execNot (a : Byte) (s : State) (op : Byte := Instr.opcode (.not a)) : Result :=
  .next (s.aluUnary (.not a) a (fun x => ~~~x) op)

/-! ### Compare -/

/-- CMP: FL alone is written (R134). -/
def execCmp (a b : Byte) (s : State) (op : Byte := Instr.opcode (.cmp a b)) : Result :=
  .next (s.withRegs op a b (fun ra rb =>
    (s.setFlags (compareFlags (s.x.get ra) (s.x.get rb))).advance (Instr.size (.cmp a b))))

end Sys2Proof.Machine
end

