-- ==== Sys2Proof/Machine/ControlFlow.lean ====
section
/-! DEFINITION. The control-flow instructions (42_control_flow.md). A target is the value of a register, a return's target
the byte at SP (R160); no flag is written. `op` is the opcode byte fetched, for a fault record. -/

namespace Sys2Proof.Machine

/-- A conditional jump: the register's value when the condition holds of FL, else the default advance (R160). The operand
is checked either way (R26, D23). -/
def State.jumpIf (s : State) (i : Instr) (a : Byte) (condition : Flags → Bool) (op : Byte := i.opcode) : State :=
  s.withReg op a (fun ra =>
    if condition s.fl = true then s.jumpTo (s.x.get ra) else s.advance i.size)

/-- JMP (R161). -/
def execJmp (a : Byte) (s : State) (op : Byte := Instr.opcode (.jmp a)) : Result :=
  .next (s.withReg op a (fun ra => s.jumpTo (s.x.get ra)))

/-- JEQ (R162). -/
def execJeq (a : Byte) (s : State) (op : Byte := Instr.opcode (.jeq a)) : Result :=
  .next (s.jumpIf (.jeq a) a Flags.eq op)

/-- JNE (R163). -/
def execJne (a : Byte) (s : State) (op : Byte := Instr.opcode (.jne a)) : Result :=
  .next (s.jumpIf (.jne a) a Flags.ne op)

/-- JGT (R164). -/
def execJgt (a : Byte) (s : State) (op : Byte := Instr.opcode (.jgt a)) : Result :=
  .next (s.jumpIf (.jgt a) a Flags.gt op)

/-- JLT (R165). -/
def execJlt (a : Byte) (s : State) (op : Byte := Instr.opcode (.jlt a)) : Result :=
  .next (s.jumpIf (.jlt a) a Flags.lt op)

/-- JLE (R166). -/
def execJle (a : Byte) (s : State) (op : Byte := Instr.opcode (.jle a)) : Result :=
  .next (s.jumpIf (.jle a) a Flags.le op)

/-- JGE (R167). -/
def execJge (a : Byte) (s : State) (op : Byte := Instr.opcode (.jge a)) : Result :=
  .next (s.jumpIf (.jge a) a Flags.ge op)

/-- The byte CALL stores: the address after the CALL, `mod256(pc + 2)` (R57, R168, D22). -/
def State.returnByte (s : State) : Byte := BitVec.ofNat 8 (s.pc + 2)

/-- CALL: the return address is pushed, then the pc takes the register's value, read after the decrement of SP (R168). -/
def execCall (a : Byte) (s : State) (op : Byte := Instr.opcode (.call a)) : Result :=
  .next (s.withReg op a (fun ra =>
    let pushed := s.push (fun _ => s.returnByte)
    pushed.jumpTo (pushed.x.get ra)))

/-- RET (R169). -/
def execRet (s : State) : Result := .next s.popPc

end Sys2Proof.Machine
end

