-- ==== Sys2Proof/Machine/DataMovement.lean ====
section
/-! DEFINITION. Data movement, output, NOP and HLT (44_data_movement.md). `op` is the opcode byte fetched, for a
fault record. -/

namespace Sys2Proof.Machine

/-- LDI: the literal goes to the register (R211). -/
def execLdi (a imm : Byte) (s : State) (op : Byte := Instr.opcode (.ldi a imm)) : Result :=
  .next (s.withReg op a (fun ra =>
    (s.setReg ra imm).advance (Instr.size (.ldi a imm))))

/-- LD: `a` takes the byte at the address in `b` (R212). -/
def execLd (a b : Byte) (s : State) (op : Byte := Instr.opcode (.ld a b)) : Result :=
  .next (s.withRegs op a b (fun ra rb =>
    (s.setReg ra (s.memAt (s.x.get rb))).advance (Instr.size (.ld a b))))

/-- ST: the value in `b` goes to the address in `a` (R213, C3). -/
def execSt (a b : Byte) (s : State) (op : Byte := Instr.opcode (.st a b)) : Result :=
  .next (s.withRegs op a b (fun ra rb =>
    (s.setMem (s.x.get ra) (s.x.get rb)).advance (Instr.size (.st a b))))

/-- An output instruction appends one event and advances the pc (R214). -/
def State.output (s : State) (i : Instr) (a : Byte) (k : OutKind) (op : Byte := i.opcode) : State :=
  s.withReg op a (fun ra => (s.emit k (s.x.get ra)).advance i.size)

/-- PRN (R216). -/
def execPrn (a : Byte) (s : State) (op : Byte := Instr.opcode (.prn a)) : Result :=
  .next (s.output (.prn a) a .prn op)

/-- PRA (R218). -/
def execPra (a : Byte) (s : State) (op : Byte := Instr.opcode (.pra a)) : Result :=
  .next (s.output (.pra a) a .pra op)

/-- NOP (R220). -/
def execNop (s : State) : Result := .next (s.advance (Instr.size .nop))

/-- HLT (R222). -/
def execHlt (s : State) : Result := .next s.halt

end Sys2Proof.Machine
end

