-- ==== Sys2Proof/Machine/StackInterrupt.lean ====
section
/-! DEFINITION. The stack and interrupt-bookkeeping instructions (43_stack_interrupt.md). `op` is the opcode
byte fetched, for a fault record; `INT_RECORD` and `IRET_RESTORES_FL` are arguments with their stated defaults (R6). -/

namespace Sys2Proof.Machine

/-- PUSH: the register is read after the decrement of SP (R191). -/
def execPush (a : Byte) (s : State) (op : Byte := Instr.opcode (.push a)) : Result :=
  .next (s.withReg op a (fun ra =>
    (s.push (fun t => t.x.get ra)).advance (Instr.size (.push a))))

/-- POP (R192). -/
def execPop (a : Byte) (s : State) (op : Byte := Instr.opcode (.pop a)) : Result :=
  .next (s.withReg op a (fun ra => (s.popReg ra).advance (Instr.size (.pop a))))

/-- INT: a number is recorded in IS by `INT_RECORD` and no control is transferred (R194, R195, R247). -/
def execInt (a : Byte) (s : State) (op : Byte := Instr.opcode (.int a))
    (record : Byte → Byte → Byte := Config.intRecord) : Result :=
  .next (s.withReg op a (fun ra =>
    (s.recordInterrupt record ra).advance (Instr.size (.int a))))

/-- IRET, for the parameter `IRET_RESTORES_FL` (R197). -/
def execIret (s : State) (restoresFl : Bool := Config.iretRestoresFl) : Result :=
  .next (s.returnFromInterrupt restoresFl)

end Sys2Proof.Machine
end

