-- ==== Sys2Proof/Machine/Fetch.lean ====
section
/-! DEFINITION. Fetch and decode of the instruction at the pc, and the exceptions of fetch (40_cycle.md R102, R103). -/

namespace Sys2Proof.Machine

/-- The instruction at the pc, from the bytes there; the decoder asks for operand bytes only after the opcode is found.
No read has an effect (R56), so the bytes are collected first (log entry 13). -/
def fetch (s : State) (table : OpcodeMap := instructionTable) : Except DecodeError (Instr × List Byte) :=
  decode (s.mem.bytesFrom s.pc maxInstrBytes) table

/-- The opcode byte a fetch that yields an instruction has read (R102, R106). -/
def State.fetchedOpcode (s : State) : Byte := s.mem.byteAt s.pc

/-- The exception of a fetch that yields no instruction (R102, R103, R243, R244). -/
def State.takeFetchException (s : State) : DecodeError → State
  | .noOpcode => s.takeException .addressingFault none (.address s.pc)
  | .unknownOpcode op => s.takeException .unknownOpcode (some op) .none
  | .noOperand op k => s.takeException .addressingFault (some op) (.address (s.pc + k))

/-- Bytes written at consecutive addresses from `a`; a byte whose address does not exist is dropped. -/
def State.putBytes (s : State) (a : Nat) : List Byte → State
  | [] => s
  | v :: rest => State.putBytes { s with mem := (s.mem.write? a v).getD s.mem } (a + 1) rest

end Sys2Proof.Machine
end

