-- ==== Sys2Proof/Machine/Step.lean ====
section
/-! DEFINITION. The complete step (40_cycle.md R100 to R106). -/

namespace Sys2Proof.Machine

/-- One step: none from HALTED (R101), else fetch, decode and execute one whole instruction (R106). -/
def step (s : State) : Host.Outcome State Fault Refusal :=
  match s.run with
  | .halted => .fault .halted
  | .running =>
    match fetch s with
    | .ok (i, _) => exec i s
    | .error e => .next (s.takeFetchException e)

/-- The state with the instruction of a table word stored where the next step fetches, at the pc. -/
def State.withFetchWord (s : State) (nbits w : Nat) : State := s.putBytes s.pc (tableWordBytes nbits w)

end Sys2Proof.Machine
end

