-- ==== Sys2Proof/Machine/HostPort.lean ====
section
/-! DEFINITION. The interfaces of the block to its host (00_scope.md R7): load before the first step, the run loop, and the
result a run returns. -/

namespace Sys2Proof.Machine

/-- `load_byte(addr, v)` (R7). -/
def hostLoadByte (s : State) (a v : Byte) : State := s.setMem a v

/-- The load of a program at consecutive addresses from 0; none is the LoadError of a program over 256 bytes, which is then
not run (R246, R272). It touches `mem` alone. -/
def hostLoadProgram (s : State) (p : List Byte) : Option State :=
  if p.length ≤ Config.memSize then some (s.putBytes 0 p) else none

/-- The state `n` steps later, none where some step has no next state (R106, R108). The step is an argument: `step` by
default, `(stepWith · p)` for the parameters `p`. -/
def hostSteps (n : Nat) (s : State) (oneStep : State → Result := step) : Option State :=
  match n with
  | 0 => some s
  | n + 1 =>
    match oneStep s with
    | .next t => hostSteps n t oneStep
    | .fault _ => none
    | .refused _ => none

/-- What `run()` returns (R7, R108). -/
inductive RunResult where
  | success
  | fault (r : FaultRecord)
  deriving DecidableEq, Repr

/-- The result a HALTED CORE reports: success when the reason is HLT, else the fault record; none while RUNNING. -/
def State.result (s : State) : Option RunResult :=
  match s.run, s.why with
  | .running, _ => none
  | .halted, .hlt => some .success
  | .halted, .fault r => some (.fault r)
  | .halted, .none => none

/-- `run()` cut off after at most `n` steps: steps repeat until HALTED, and none says that the CORE still runs (R108, log
entry 14). -/
def hostRun (n : Nat) (s : State) (oneStep : State → Result := step) : Option RunResult :=
  match n with
  | 0 => s.result
  | n + 1 =>
    match oneStep s with
    | .next t => hostRun n t oneStep
    | .fault _ => s.result
    | .refused _ => s.result

end Sys2Proof.Machine
end

