-- ==== Sys2Proof/Machine/Parameters.lean ====
section
/-! DEFINITION. The machine for any value of the parameters of 00_scope.md R6: the same meanings, each given the fetched
opcode byte and the parameter it reads, and the step of 40_cycle.md R106 with `OPCODE_MAP` an argument. `exec` and `step`
are this machine at the defaults. Reset takes its parameters in `State.resetWith`. -/

namespace Sys2Proof.Machine

/-- The dispatch (R105) of an instruction fetched with the opcode byte `op`, for the parameters `p`. -/
def execWith (i : Instr) (s : State) (op : Byte := i.opcode) (p : Params := {}) : Result :=
  match i with
  | .nop => execNop s
  | .hlt => execHlt s
  | .ret => execRet s
  | .iret => execIret s p.iretRestoresFl
  | .push a => execPush a s op
  | .pop a => execPop a s op
  | .prn a => execPrn a s op
  | .pra a => execPra a s op
  | .call a => execCall a s op
  | .int a => execInt a s op p.intRecord
  | .jmp a => execJmp a s op
  | .jeq a => execJeq a s op
  | .jne a => execJne a s op
  | .jgt a => execJgt a s op
  | .jlt a => execJlt a s op
  | .jle a => execJle a s op
  | .jge a => execJge a s op
  | .inc a => execInc a s op
  | .dec a => execDec a s op
  | .not a => execNot a s op
  | .ldi a imm => execLdi a imm s op
  | .ld a b => execLd a b s op
  | .st a b => execSt a b s op
  | .add a b => execAdd a b s op
  | .sub a b => execSub a b s op
  | .mul a b => execMul a b s op
  | .div a b => execDiv a b s op
  | .mod a b => execMod a b s op
  | .cmp a b => execCmp a b s op
  | .and a b => execAnd a b s op
  | .or a b => execOr a b s op
  | .xor a b => execXor a b s op
  | .shl a b => execShl a b s op
  | .shr a b => execShr a b s op

/-- The step (R101, R106) for the parameters `p`. -/
def stepWith (s : State) (p : Params := {}) : Result :=
  match s.run with
  | .halted => .fault .halted
  | .running =>
    match fetch s p.opcodeMap with
    | .ok (i, _) => execWith i s s.fetchedOpcode p
    | .error e => .next (s.takeFetchException e)

end Sys2Proof.Machine
end

