-- ==== Sys2Proof/Safety.lean ====
section
/-! DEFINITION. What statements count as a sound state and a sound halt: the invariants of the CORE. -/

namespace Sys2Proof.Machine

/-- At most one of E, G, L is set: all are clear until the first CMP, which sets exactly one (R31, R134, C13). -/
abbrev Flags.exclusive (f : Flags) : Prop :=
  ¬(f.e = true ∧ f.g = true) ∧ ¬(f.e = true ∧ f.l = true) ∧ ¬(f.g = true ∧ f.l = true)

/-- What a fault record can say, by its kind (R34, R243 to R245): the opcode of an UnknownOpcode has no row and no detail;
an AddressingFault tells the fetch address 256 or a byte that names no register; an ArithmeticError tells DIV or MOD. -/
def FaultRecord.sound (r : FaultRecord) : Prop :=
  match r.kind with
  | .unknownOpcode => (∃ op, r.opcode = some op ∧ lookupOpcode op = none) ∧ r.detail = .none ∧ r.fpc < 256
  | .addressingFault =>
    (r.opcode = none ∧ r.fpc = 256 ∧ r.detail = .address 256)
      ∨ (∃ op, r.opcode = some op ∧ lookupOpcode op ≠ none ∧ r.fpc < 256
          ∧ (r.detail = .address 256 ∨ ∃ b, r.detail = .registerIndex b ∧ 8 ≤ b.toNat))
  | .arithmeticError =>
    (r.opcode = some 0xA3#8 ∨ r.opcode = some 0xA4#8) ∧ (∃ d, r.detail = .divisor d) ∧ r.fpc + 3 ≤ 256

/-- The halt reason agrees with the run-state and, after an exception, with the pc (R34, R241, R242). -/
def State.haltAgrees (s : State) : Prop :=
  match s.why with
  | .none => s.run = .running
  | .hlt => s.run = .halted
  | .fault r => s.run = .halted ∧ r.sound ∧ s.pc = pcAfterException r.kind r.fpc

/-- The invariant of the CORE: memory in canonical form, the pc in 0..256 (R30), and the halt reason in agreement. -/
structure State.Inv (s : State) : Prop where
  memWf : s.mem.wf
  pcRange : s.pc ≤ 256
  halt : s.haltAgrees

end Sys2Proof.Machine
end

