-- ==== Sys2Proof/WellFormed.lean ====
section
/-! DEFINITION. The one check the spec puts on an instruction's fields: every register operand byte is below 8 (10_state.md
R26, 30_encoding.md R74, 40_cycle.md R104). LDI's literal is not checked. -/

namespace Sys2Proof

/-- The register operand bytes of an instruction in the order the step checks them, `a` before `b` (R70, R104, R248). -/
def Instr.regOperands : Instr → List Byte
  | .nop | .hlt | .ret | .iret => []
  | .push a | .pop a | .prn a | .pra a | .call a | .int a => [a]
  | .jmp a | .jeq a | .jne a | .jgt a | .jlt a | .jle a | .jge a => [a]
  | .inc a | .dec a | .not a => [a]
  | .ldi a _ => [a]
  | .ld a b | .st a b => [a, b]
  | .add a b | .sub a b | .mul a b | .div a b | .mod a b | .cmp a b => [a, b]
  | .and a b | .or a b | .xor a b | .shl a b | .shr a b => [a, b]

/-- `0 <= index < 8` on the whole operand byte (R26). -/
def validIndex (b : Byte) : Bool := decide (b.toNat < 8)

/-- Every register operand names a register. -/
def Instr.wellFormed (i : Instr) : Bool := i.regOperands.all validIndex

/-- The first register operand that names no register, the one AddressingFault reports (R248). -/
def Instr.firstBadOperand (i : Instr) : Option Byte := i.regOperands.find? (fun b => !validIndex b)

end Sys2Proof
end

