-- ==== Sys2Proof/Certificates/Slice0/Obligations.lean ====
section
/-! DEFINITION. The statements about the CORE for the provers, from the numbered rules of spec/. A register operand is
written `r.toByte` for a register `r`, so a statement over all registers covers every legal operand byte; the bytes of 8
and more are covered by `BadRegisterOperandFaults`. -/

open Sys2Proof Sys2Proof.Machine

/-! ### Encoding -/

/-- One word per family, written out from the byte values of R71 (the spec's default of OPCODE_MAP, log entry 1). -/
def Obligations.DecodeSpecWords : Prop :=
  decode [0b10100000#8, 2#8, 3#8] = .ok (.add 2#8 3#8, [])
    ∧ decode [0b01100110#8, 4#8, 0xFF#8] = .ok (.dec 4#8, [0xFF#8])
    ∧ decode [0b01011001#8, 6#8] = .ok (.jle 6#8, [])
    ∧ decode [0b01000101#8, 7#8] = .ok (.push 7#8, [])
    ∧ decode [0b00010011#8] = .ok (.iret, [])
    ∧ decode [0b10000010#8, 1#8, 200#8] = .ok (.ldi 1#8 200#8, [])
    ∧ decode [0b01001000#8, 2#8] = .ok (.pra 2#8, [])

/-- Decoding the bytes of an instruction gives it back, whatever its operand bytes and whatever bytes follow: no bit of an
encoding is dropped. -/
def Obligations.DecodeOfEncode : Prop :=
  ∀ (i : Instr) (rest : List Byte), decode (encode i ++ rest) = .ok (i, rest)

/-- Bytes that decode are the bytes of the instruction decoded: each instruction has one spelling. -/
def Obligations.EncodeOfDecode : Prop :=
  ∀ (bytes : List Byte) (i : Instr) (rest : List Byte), decode bytes = .ok (i, rest) → encode i ++ rest = bytes

/-- R77: the opcode byte alone gives the length, one more than the value of its bits 7:6, which is the operand count of its
table entry. -/
def Obligations.LengthFromOpcodeAlone : Prop :=
  ∀ (op : Byte) (rest : List Byte) (i : Instr) (tail : List Byte), decode (op :: rest) = .ok (i, tail) →
    i.size = 1 + op.toNat / 64
      ∧ rest.length = tail.length + op.toNat / 64
      ∧ ∃ row, lookupOpcode op = some row ∧ row.format.operands = op.toNat / 64

/-- The opcode layout of R72: bits 7:6 are the operand count, bit 5 the ALU-class flag, and bit 4 marks CALL, INT, JMP, the
six conditional jumps, RET and IRET. -/
def Obligations.OpcodeFieldsAgreeWithTable : Prop :=
  ∀ (op : Byte) (row : TableRow), lookupOpcode op = some row →
    row.format.operands = op.toNat / 64
      ∧ row.alu = op.getLsbD 5
      ∧ (op.getLsbD 4 = true ↔ op ∈ [0x11#8, 0x13#8, 0x50#8, 0x52#8, 0x54#8, 0x55#8, 0x56#8, 0x57#8, 0x58#8, 0x59#8, 0x5A#8])

/-! ### The cycle and its exceptions -/

/-- R243: a fetched byte that is none of the 34 opcodes halts with UnknownOpcode and changes nothing else; no instruction
that is executed raises it. -/
def Obligations.UnlistedOpcodeFaults : Prop :=
  (∀ (s : State) (op : Byte), s.run = .running → s.mem.read? s.pc = some op →
    op ∉ [0x00#8, 0x01#8, 0x11#8, 0x13#8, 0x45#8, 0x46#8, 0x47#8, 0x48#8, 0x50#8, 0x52#8, 0x54#8, 0x55#8, 0x56#8, 0x57#8,
      0x58#8, 0x59#8, 0x5A#8, 0x65#8, 0x66#8, 0x69#8, 0x82#8, 0x83#8, 0x84#8, 0xA0#8, 0xA1#8, 0xA2#8, 0xA3#8, 0xA4#8, 0xA7#8,
      0xA8#8, 0xAA#8, 0xAB#8, 0xAC#8, 0xAD#8] →
    step s = .next { s with
      run := .halted
      why := .fault { kind := .unknownOpcode, opcode := some op, fpc := s.pc, detail := .none } })
  ∧ ∀ (i : Instr) (s t : State) (r : FaultRecord), s.run = .running → exec i s = .next t → t.run = .halted →
    t.why = .fault r → r.kind ≠ .unknownOpcode

/-- A step runs the decoded instruction: where the bytes at the pc are those of `i`, the step of a RUNNING CORE is
`exec i`; the step does nothing around it (R105, R106). -/
def Obligations.StepRunsInstructionAtPc : Prop :=
  ∀ (s : State) (i : Instr), s.run = .running →
    (∀ k, k < (encode i).length → s.mem.read? (s.pc + k) = (encode i)[k]?) →
    step s = exec i s

/-- R102, R104, R106: the step of a RUNNING CORE is the spec's sequence of checks: opcode fetch, table lookup, first and
second operand fetch, register checks of `a` then `b`, and then the instruction. -/
def Obligations.StepFollowsCycle : Prop :=
  ∀ s : State, s.run = .running →
    let raise (kind : ExceptionKind) (opcode : Option Byte) (detail : Detail) : Result :=
      .next { s with run := .halted, why := .fault { kind := kind, opcode := opcode, fpc := s.pc, detail := detail } }
    let check (op : Byte) (index : Byte) (otherwise : Result) : Result :=
      if 8 ≤ index.toNat then raise .addressingFault (some op) (.registerIndex index) else otherwise
    step s =
      match s.mem.read? s.pc with
      | none => raise .addressingFault none (.address s.pc)
      | some op =>
        match lookupOpcode op with
        | none => raise .unknownOpcode (some op) .none
        | some row =>
          match row.format with
          | .f0 i => exec i s
          | .f1r make =>
            match s.mem.read? (s.pc + 1) with
            | none => raise .addressingFault (some op) (.address (s.pc + 1))
            | some op1 => check op op1 (exec (make op1) s)
          | .f2rr make =>
            match s.mem.read? (s.pc + 1), s.mem.read? (s.pc + 2) with
            | none, _ => raise .addressingFault (some op) (.address (s.pc + 1))
            | some _, none => raise .addressingFault (some op) (.address (s.pc + 2))
            | some op1, some op2 => check op op1 (check op op2 (exec (make op1 op2) s))
          | .f2ri make =>
            match s.mem.read? (s.pc + 1), s.mem.read? (s.pc + 2) with
            | none, _ => raise .addressingFault (some op) (.address (s.pc + 1))
            | some _, none => raise .addressingFault (some op) (.address (s.pc + 2))
            | some op1, some op2 => check op op1 (exec (make op1 op2) s)

/-- R101: a step exists exactly when the run-state is RUNNING. -/
def Obligations.StepExistsOnlyWhileRunning : Prop :=
  ∀ s : State, (s.run = .running → ∃ t, step s = .next t) ∧ (s.run = .halted → ∀ t, step s ≠ .next t)

/-- R26: a register operand of 8 or more raises AddressingFault with that byte, whichever instruction names it and whether
or not its value would be used, and nothing else changes; with two bad operands the first is reported. -/
def Obligations.BadRegisterOperandFaults : Prop :=
  ∀ (i : Instr) (s : State) (b : Byte), i.firstBadOperand = some b →
    exec i s = .next { s with
      run := .halted
      why := .fault { kind := .addressingFault, opcode := some i.opcode, fpc := s.pc, detail := .registerIndex b } }

/-- R244: the three causes of AddressingFault, what each records, and that a step raises it for no other cause. -/
def Obligations.AddressingFaultCauses : Prop :=
  ∀ s : State, s.run = .running → s.pc ≤ 256 →
    let raised (opcode : Option Byte) (detail : Detail) : Result :=
      .next { s with
        run := .halted
        why := .fault { kind := .addressingFault, opcode := opcode, fpc := s.pc, detail := detail } }
    let operandMissing (op : Byte) : Prop :=
      s.mem.read? s.pc = some op ∧ ∃ row, lookupOpcode op = some row
        ∧ ((1 ≤ row.format.operands ∧ s.pc + 1 = 256) ∨ (2 ≤ row.format.operands ∧ s.pc + 2 = 256))
    let badIndex (i : Instr) (b : Byte) : Prop :=
      (∃ rest, decode (s.mem.bytesFrom s.pc 3) = .ok (i, rest)) ∧ i.firstBadOperand = some b
    (s.pc = 256 → step s = raised none (.address 256))
      ∧ (∀ op, operandMissing op → step s = raised (some op) (.address 256))
      ∧ (∀ i b, badIndex i b → step s = raised (some i.opcode) (.registerIndex b))
      ∧ ∀ t r, step s = .next t → t.run = .halted → t.why = .fault r → r.kind = .addressingFault →
        s.pc = 256 ∨ (∃ op, operandMissing op) ∨ ∃ i b, badIndex i b

/-- R107 and R242: a step that halts leaves memory, registers, flags and output as they were; after HLT the pc stays; after
an exception the record has the instruction's address and the byte fetched there, and the pc stays, or is 3 further after
ArithmeticError. -/
def Obligations.HaltingStepIsPrecise : Prop :=
  ∀ s t : State, s.run = .running → step s = .next t → t.run = .halted →
    t.mem = s.mem ∧ t.x = s.x ∧ t.fl = s.fl ∧ t.out = s.out
      ∧ ((t.why = .hlt ∧ t.pc = s.pc)
        ∨ ∃ r, t.why = .fault r ∧ r.fpc = s.pc ∧ r.opcode = s.mem.read? s.pc
          ∧ t.pc = if r.kind = .arithmeticError then s.pc + 3 else s.pc)

/-- R33's causes of HALTED: an instruction whose register operands name registers, other than HLT and other than DIV or MOD
of a register holding 0, leaves the run-state and the halt reason as they were. -/
def Obligations.OnlyHltAndExceptionsHalt : Prop :=
  ∀ (i : Instr) (s t : State), i.wellFormed = true → i ≠ .hlt →
    (∀ (a : Byte) (rb : Reg), i = .div a rb.toByte ∨ i = .mod a rb.toByte → s.x.get rb ≠ 0#8) →
    exec i s = .next t → t.run = s.run ∧ t.why = s.why

/-- R245: DIV and MOD of a register holding 0 halt with ArithmeticError, which records the opcode, the address and the
divisor's register, keeps every register and advances the pc by 3; no other instruction raises it. -/
def Obligations.ArithmeticErrorCauses : Prop :=
  ∀ s : State, s.run = .running →
    let raised (op : Byte) (rb : Reg) : State := { s with
      pc := s.pc + 3
      run := .halted
      why := .fault { kind := .arithmeticError, opcode := some op, fpc := s.pc, detail := .divisor rb } }
    (∀ ra rb : Reg, s.x.get rb = 0#8 →
      exec (.div ra.toByte rb.toByte) s = .next (raised 0xA3#8 rb)
        ∧ exec (.mod ra.toByte rb.toByte) s = .next (raised 0xA4#8 rb))
    ∧ ∀ (i : Instr) (t : State) (r : FaultRecord), exec i s = .next t → t.run = .halted →
      t.why = .fault r → r.kind = .arithmeticError →
      ∃ ra rb : Reg, s.x.get rb = 0#8
        ∧ ((i = .div ra.toByte rb.toByte ∧ t = raised 0xA3#8 rb) ∨ (i = .mod ra.toByte rb.toByte ∧ t = raised 0xA4#8 rb))

/-! ### ALU -/

/-- R121 to R123: ADD, SUB and MUL write the exact result modulo 256 to the first register, advance the pc by 3 and change
nothing else. -/
def Obligations.AddSubMulResult : Prop :=
  ∀ (ra rb : Reg) (s : State),
    let x : Int := (s.x.get ra).toNat
    let y : Int := (s.x.get rb).toNat
    let written (v : Int) : Result := .next { s with x := s.x.set ra (mod256 v), pc := s.pc + 3 }
    (encode (.add ra.toByte rb.toByte) = [0xA0#8, ra.toByte, rb.toByte]
        ∧ exec (.add ra.toByte rb.toByte) s = written (x + y))
      ∧ (encode (.sub ra.toByte rb.toByte) = [0xA1#8, ra.toByte, rb.toByte]
        ∧ exec (.sub ra.toByte rb.toByte) s = written (x - y))
      ∧ (encode (.mul ra.toByte rb.toByte) = [0xA2#8, ra.toByte, rb.toByte]
        ∧ exec (.mul ra.toByte rb.toByte) s = written (x * y))

/-- R124 and R125: DIV and MOD write the unsigned quotient and remainder; a divisor of 0 halts with ArithmeticError, the
pc 3 further and every register as it was. -/
def Obligations.DivModResult : Prop :=
  ∀ (ra rb : Reg) (s : State),
    let n := (s.x.get ra).toNat
    let d := (s.x.get rb).toNat
    let written (v : Nat) : Result := .next { s with x := s.x.set ra (mod256 v), pc := s.pc + 3 }
    let fatal (op : Byte) : Result := .next { s with
      pc := s.pc + 3
      run := .halted
      why := .fault { kind := .arithmeticError, opcode := some op, fpc := s.pc, detail := .divisor rb } }
    (encode (.div ra.toByte rb.toByte) = [0xA3#8, ra.toByte, rb.toByte]
        ∧ exec (.div ra.toByte rb.toByte) s = if d = 0 then fatal 0xA3#8 else written (n / d))
      ∧ (encode (.mod ra.toByte rb.toByte) = [0xA4#8, ra.toByte, rb.toByte]
        ∧ exec (.mod ra.toByte rb.toByte) s = if d = 0 then fatal 0xA4#8 else written (n % d))

/-- R126 to R128: AND, OR and XOR write to the first register the byte whose every bit is that operation of the operands'
bits, advance the pc by 3 and change nothing else. -/
def Obligations.BitwiseResult : Prop :=
  ∀ (ra rb : Reg) (s : State),
    let bitwise (i : Instr) (op : Byte) (f : Bool → Bool → Bool) : Prop :=
      encode i = [op, ra.toByte, rb.toByte] ∧
      ∃ v : Byte, (∀ k, k < 8 → v.getLsbD k = f ((s.x.get ra).getLsbD k) ((s.x.get rb).getLsbD k))
        ∧ exec i s = .next { s with x := s.x.set ra v, pc := s.pc + 3 }
    bitwise (.and ra.toByte rb.toByte) 0xA8#8 and
      ∧ bitwise (.or ra.toByte rb.toByte) 0xAA#8 or
      ∧ bitwise (.xor ra.toByte rb.toByte) 0xAB#8 xor

/-- R129 and R130: SHL and SHR shift by the whole 8-bit value of the second register, SHL modulo 256 and SHR logically, so
that 8 or more gives 0. -/
def Obligations.ShiftResult : Prop :=
  ∀ (ra rb : Reg) (s : State),
    let x := (s.x.get ra).toNat
    let y := (s.x.get rb).toNat
    let written (v : Nat) : Result := .next { s with x := s.x.set ra (mod256 v), pc := s.pc + 3 }
    (encode (.shl ra.toByte rb.toByte) = [0xAC#8, ra.toByte, rb.toByte]
        ∧ exec (.shl ra.toByte rb.toByte) s = written (x * 2 ^ y))
      ∧ (encode (.shr ra.toByte rb.toByte) = [0xAD#8, ra.toByte, rb.toByte]
        ∧ exec (.shr ra.toByte rb.toByte) s = written (x / 2 ^ y))
      ∧ (8 ≤ y → exec (.shl ra.toByte rb.toByte) s = written 0 ∧ exec (.shr ra.toByte rb.toByte) s = written 0)

/-- R131 to R133: INC, DEC and NOT change one register in place, INC and DEC modulo 256, advance the pc by 2 and change
nothing else. -/
def Obligations.UnaryResult : Prop :=
  ∀ (ra : Reg) (s : State),
    let x : Int := (s.x.get ra).toNat
    let written (v : Int) : Result := .next { s with x := s.x.set ra (mod256 v), pc := s.pc + 2 }
    (encode (.inc ra.toByte) = [0x65#8, ra.toByte] ∧ exec (.inc ra.toByte) s = written (x + 1))
      ∧ (encode (.dec ra.toByte) = [0x66#8, ra.toByte] ∧ exec (.dec ra.toByte) s = written (x - 1))
      ∧ (encode (.not ra.toByte) = [0x69#8, ra.toByte] ∧ exec (.not ra.toByte) s = written (255 - x))

/-- R134: CMP writes E, G and L by the unsigned comparison, exactly one of them set, whatever FL held; no register is
written. -/
def Obligations.CompareResult : Prop :=
  ∀ (ra rb : Reg) (s : State),
    let x := (s.x.get ra).toNat
    let y := (s.x.get rb).toNat
    encode (.cmp ra.toByte rb.toByte) = [0xA7#8, ra.toByte, rb.toByte] ∧
    ∃ f : Flags, exec (.cmp ra.toByte rb.toByte) s = .next { s with fl := f, pc := s.pc + 3 }
      ∧ (f.e = true ↔ x = y) ∧ (f.g = true ↔ x > y) ∧ (f.l = true ↔ x < y)
      ∧ f ∈ [⟨true, false, false⟩, ⟨false, true, false⟩, ⟨false, false, true⟩]

/-- The division law of R135 (the spec's own inference there): for a divisor that is not 0, DIV and MOD from one state give
`q` and `r` with `n = q * d + r` and `r < d`. -/
def Obligations.DivModReconstructsDividend : Prop :=
  ∀ (ra rb : Reg) (s : State), s.x.get rb ≠ 0#8 →
    ∃ t u : State, exec (.div ra.toByte rb.toByte) s = .next t ∧ exec (.mod ra.toByte rb.toByte) s = .next u
      ∧ (s.x.get ra).toNat = (t.x.get ra).toNat * (s.x.get rb).toNat + (u.x.get ra).toNat
      ∧ (u.x.get ra).toNat < (s.x.get rb).toNat

/-- Frame of the ALU instructions (R120, R53), on every path, exceptions included: every register but the one the first
operand names is unchanged, every register after CMP; FL is unchanged but after CMP; all of memory and the output are
unchanged. -/
def Obligations.AluFrame : Prop :=
  ∀ (a b : Byte) (s t : State) (i : Instr),
    (i ∈ [.add a b, .sub a b, .mul a b, .div a b, .mod a b, .and a b, .or a b, .xor a b, .shl a b, .shr a b, .inc a, .dec a,
      .not a, .cmp a b]) → exec i s = .next t →
    (∀ q : Reg, i = .cmp a b ∨ a ≠ q.toByte → t.x.get q = s.x.get q)
      ∧ (i ≠ .cmp a b → t.fl = s.fl)
      ∧ (∀ c : Nat, t.mem.read? c = s.mem.read? c)
      ∧ t.out = s.out

/-! ### Flags -/

/-- R31's readers: no instruction but the six conditional jumps depends on FL. Its effect is the same whatever FL holds, and
FL itself is carried through, or written by a CMP of two registers without regard to its old value. For IRET this rests on
the default of IRET_RESTORES_FL (log entry 11). -/
def Obligations.FlagsReadOnlyByConditionalJumps : Prop :=
  ∀ (i : Instr) (s t : State) (f : Flags), exec i s = .next t →
    match i with
    | .jeq _ | .jne _ | .jgt _ | .jlt _ | .jle _ | .jge _ => True
    | .cmp a b => i.wellFormed = true → exec (.cmp a b) { s with fl := f } = .next t
    | i => exec i { s with fl := f } = .next { t with fl := f }

/-- R31's writers: CMP alone changes FL, on every path. For IRET this rests on the default of IRET_RESTORES_FL (log
entry 11). -/
def Obligations.OnlyCompareWritesFlags : Prop :=
  ∀ (i : Instr) (s t : State), (∀ a b, i ≠ .cmp a b) → exec i s = .next t → t.fl = s.fl

/-! ### Control flow -/

/-- R161: JMP sets the pc to the register's value and changes nothing else. -/
def Obligations.JumpResult : Prop :=
  ∀ (ra : Reg) (s : State), encode (.jmp ra.toByte) = [0x54#8, ra.toByte]
    ∧ exec (.jmp ra.toByte) s = .next { s with pc := (s.x.get ra).toNat }

/-- R162 to R167: each conditional jump takes the register's value when its condition holds of FL and else advances by 2;
where exactly one flag is set, as after any CMP, JLE is taken exactly when JGT is not and JGE exactly when JLT is not. -/
def Obligations.ConditionalJumpResults : Prop :=
  ∀ (ra : Reg) (s : State),
    let jumps (i : Instr) (op : Byte) (taken : Prop) : Prop :=
      encode i = [op, ra.toByte]
        ∧ (taken → exec i s = .next { s with pc := (s.x.get ra).toNat })
        ∧ (¬taken → exec i s = .next { s with pc := s.pc + 2 })
    jumps (.jeq ra.toByte) 0x55#8 (s.fl.e = true)
      ∧ jumps (.jne ra.toByte) 0x56#8 (s.fl.e = false)
      ∧ jumps (.jgt ra.toByte) 0x57#8 (s.fl.g = true)
      ∧ jumps (.jlt ra.toByte) 0x58#8 (s.fl.l = true)
      ∧ jumps (.jle ra.toByte) 0x59#8 (s.fl.l = true ∨ s.fl.e = true)
      ∧ jumps (.jge ra.toByte) 0x5A#8 (s.fl.g = true ∨ s.fl.e = true)
      ∧ (∀ (rc rd : Reg) (u : State), exec (.cmp rc.toByte rd.toByte) u = .next s →
          jumps (.jle ra.toByte) 0x59#8 (¬s.fl.g = true) ∧ jumps (.jge ra.toByte) 0x5A#8 (¬s.fl.l = true))

/-- R168: CALL decrements SP, stores the address after it modulo 256 at the new SP and goes to the register's value, which
for R7 is the decremented SP; in a memory in canonical form the byte at the new SP is then the return address. -/
def Obligations.CallResult : Prop :=
  ∀ (ra : Reg) (s : State),
    let sp : Byte := mod256 ((s.x.get .r7).toNat - 1)
    let m := s.mem.put sp.toNat (mod256 (s.pc + 2))
    encode (.call ra.toByte) = [0x50#8, ra.toByte]
      ∧ exec (.call ra.toByte) s = .next { s with
          x := s.x.set .r7 sp
          mem := m
          pc := if ra = .r7 then sp.toNat else (s.x.get ra).toNat }
      ∧ (s.mem.wf → m.read? sp.toNat = some (mod256 (s.pc + 2)))

/-- R169: RET goes to the byte at SP and increments SP modulo 256. -/
def Obligations.ReturnResult : Prop :=
  ∀ s : State, encode .ret = [0x11#8]
    ∧ exec .ret s = .next { s with
        pc := (s.mem.byteAt (s.x.get .r7).toNat).toNat
        x := s.x.set .r7 (mod256 ((s.x.get .r7).toNat + 1)) }

/-- R171 (an inference of the spec): after a CALL, a RET in any state with the SP that CALL left and the byte that CALL
wrote there resumes at the instruction after the CALL, at 0 for a CALL at 254, with SP as before the CALL. -/
def Obligations.CallThenReturnResumes : Prop :=
  ∀ (ra : Reg) (s : State), s.mem.wf →
    ∃ t, exec (.call ra.toByte) s = .next t ∧
      ∀ u : State, u.x.get .r7 = t.x.get .r7 →
        u.mem.byteAt (t.x.get .r7).toNat = t.mem.byteAt (t.x.get .r7).toNat →
        ∃ v, exec .ret u = .next v ∧ v.x.get .r7 = s.x.get .r7 ∧ v.pc = (s.pc + 2) % 256

/-- Frame of the jumps (R160): JMP and the conditional jumps change no register, flag, byte of memory or output. -/
def Obligations.JumpFrame : Prop :=
  ∀ (a : Byte) (s t : State) (i : Instr),
    (i ∈ [.jmp a, .jeq a, .jne a, .jgt a, .jlt a, .jle a, .jge a]) → exec i s = .next t →
    (∀ q : Reg, t.x.get q = s.x.get q) ∧ t.fl = s.fl ∧ (∀ c : Nat, t.mem.read? c = s.mem.read? c) ∧ t.out = s.out

/-! ### Stack and interrupt bookkeeping -/

/-- R191: PUSH decrements SP and writes the register's value at the new SP, for R7 the decremented SP. -/
def Obligations.PushResult : Prop :=
  ∀ (ra : Reg) (s : State),
    let sp : Byte := mod256 ((s.x.get .r7).toNat - 1)
    let v : Byte := if ra = .r7 then sp else s.x.get ra
    let m := s.mem.put sp.toNat v
    encode (.push ra.toByte) = [0x45#8, ra.toByte]
      ∧ exec (.push ra.toByte) s = .next { s with x := s.x.set .r7 sp, mem := m, pc := s.pc + 2 }
      ∧ (s.mem.wf → m.read? sp.toNat = some v)

/-- R192: POP gives the register the byte at SP and then increments SP; POP R7 leaves the popped byte plus 1. -/
def Obligations.PopResult : Prop :=
  ∀ (ra : Reg) (s : State),
    let popped := s.mem.byteAt (s.x.get .r7).toNat
    encode (.pop ra.toByte) = [0x46#8, ra.toByte]
      ∧ exec (.pop ra.toByte) s = .next { s with
          x := if ra = .r7 then s.x.set .r7 (mod256 (popped.toNat + 1))
            else (s.x.set ra popped).set .r7 (mod256 ((s.x.get .r7).toNat + 1))
          pc := s.pc + 2 }

/-- R193 (an inference of the spec): PUSH then POP of one register, R7 included, leaves all eight registers as they were. -/
def Obligations.PushThenPopRestores : Prop :=
  ∀ (ra : Reg) (s : State), s.mem.wf →
    ∃ t u, exec (.push ra.toByte) s = .next t ∧ exec (.pop ra.toByte) t = .next u
      ∧ u.x = s.x ∧ u.fl = s.fl ∧ u.out = s.out ∧ u.pc = s.pc + 4
      ∧ ∀ c : Nat, c ≠ s.pushAddr.toNat → u.mem.read? c = s.mem.read? c

/-- Frame of the stack instructions (R53, R190), on every path: PUSH, CALL and RET change no register but SP, POP none but
SP and the one its operand names, IRET all eight (its result is `IretResult`); FL and the output are unchanged, for IRET
under the default of IRET_RESTORES_FL (log entry 11); PUSH and CALL change no byte but the one at the decremented SP, the
others none. -/
def Obligations.StackFrame : Prop :=
  ∀ (a : Byte) (s t : State) (i : Instr), (i ∈ [.push a, .pop a, .call a, .ret, .iret]) → exec i s = .next t →
    (∀ q : Reg, i ≠ .iret → q ≠ .r7 → (i = .pop a → a ≠ q.toByte) → t.x.get q = s.x.get q)
      ∧ t.fl = s.fl
      ∧ t.out = s.out
      ∧ ∀ c : Nat, (i = .push a ∨ i = .call a → c ≠ s.pushAddr.toNat) → t.mem.read? c = s.mem.read? c

/-- R194: with the default INT_RECORD, INT sets bit n of IS for an interrupt number n below 8 and leaves IS for any other;
it advances the pc by 2, transfers no control and changes nothing else. -/
def Obligations.InterruptRecordsInStatus : Prop :=
  ∀ (ra : Reg) (s : State),
    let n := (s.x.get ra).toNat
    encode (.int ra.toByte) = [0x52#8, ra.toByte] ∧
    ∃ v : Byte, exec (.int ra.toByte) s = .next { s with x := s.x.set .r6 v, pc := s.pc + 2 }
      ∧ (∀ k, k < 8 → v.getLsbD k = ((s.x.get .r6).getLsbD k || decide (k = n)))

/-- R195: for every INT_RECORD, INT's effect on the registers is `x[6] <- INT_RECORD(x[6], x[a])` and nothing else; the
model's parameter is the default, R194's bit-set, and INT is that effect and the pc's advance. -/
def Obligations.InterruptRecordIsParametric : Prop :=
  (∀ (record : Byte → Byte → Byte) (r q : Reg) (s : State),
    (s.recordInterrupt record r).x.get q = (if q = .r6 then record (s.x.get .r6) (s.x.get r) else s.x.get q)
      ∧ s.recordInterrupt record r = { s with x := (s.recordInterrupt record r).x })
  ∧ (∀ (is n : Byte) (k : Nat), k < 8 → (Config.intRecord is n).getLsbD k = (is.getLsbD k || decide (k = n.toNat)))
  ∧ ∀ (r : Reg) (s : State), exec (.int r.toByte) s =
      .next { s.recordInterrupt Config.intRecord r with pc := s.pc + 2 }

/-- R197: IRET takes R6 down to R0 from the bytes at SP upward, then, only when IRET_RESTORES_FL, FL from bits 0, 1 and 2 of
the next byte, then the pc; SP ends 8 or 9 higher modulo 256 and nothing else changes. IRET runs it with the default,
false. -/
def Obligations.IretResult : Prop :=
  ∀ s : State,
    let top (k : Nat) : Byte := s.mem.byteAt (((s.x.get .r7).toNat + k) % 256)
    let restored (popped : Nat) : Regs :=
      { r0 := top 6, r1 := top 5, r2 := top 4, r3 := top 3, r4 := top 2, r5 := top 1, r6 := top 0
        r7 := mod256 ((s.x.get .r7).toNat + popped) }
    encode .iret = [0x13#8]
      ∧ s.returnFromInterrupt false = { s with x := restored 8, pc := (top 7).toNat }
      ∧ s.returnFromInterrupt true = { s with
          x := restored 9
          fl := { e := (top 7).getLsbD 0, g := (top 7).getLsbD 1, l := (top 7).getLsbD 2 }
          pc := (top 8).toNat }
      ∧ exec .iret s = .next (s.returnFromInterrupt false)

/-- R196 (a frame no hardware builds, D20): where a program has pushed a return address and then R0 to R6, IRET gives back
all eight registers and goes to that address; with a flags byte between, the parameterised return also sets FL. -/
def Obligations.IretUndoesBuiltFrame : Prop :=
  ∀ (s : State) (ret flags : Byte), s.mem.wf →
    let pushByte (t : State) (v : Byte) : State := t.push (fun _ => v)
    let saved := [s.x.r0, s.x.r1, s.x.r2, s.x.r3, s.x.r4, s.x.r5, s.x.r6]
    let built := (ret :: saved).foldl pushByte s
    let builtFl := (ret :: flags :: saved).foldl pushByte s
    exec .iret built = .next { built with x := s.x, pc := ret.toNat }
      ∧ builtFl.returnFromInterrupt true = { builtFl with
          x := s.x
          fl := { e := flags.getLsbD 0, g := flags.getLsbD 1, l := flags.getLsbD 2 }
          pc := ret.toNat }

/-- R23: IM decides nothing. An instruction that does not name R5 does the same whatever IM holds, and carries IM through;
IRET overwrites it. -/
def Obligations.MaskDecidesNothing : Prop :=
  ∀ (i : Instr) (s t : State) (v : Byte), (∀ b ∈ i.regOperands, b ≠ Reg.r5.toByte) → exec i s = .next t →
    exec i { s with x := s.x.set .r5 v } = .next (if i = .iret then t else { t with x := t.x.set .r5 v })

/-! ### Data movement, output, NOP and HLT -/

/-- R211: LDI writes its literal, whatever byte it is, to the register, advances the pc by 3 and changes nothing else. -/
def Obligations.LoadImmediateResult : Prop :=
  ∀ (ra : Reg) (imm : Byte) (s : State), encode (.ldi ra.toByte imm) = [0x82#8, ra.toByte, imm]
    ∧ exec (.ldi ra.toByte imm) s = .next { s with x := s.x.set ra imm, pc := s.pc + 3 }

/-- R212: LD gives the first register the byte at the address in the second and advances the pc by 3; the read is always of
an address that exists. -/
def Obligations.LoadResult : Prop :=
  ∀ (ra rb : Reg) (s : State), encode (.ld ra.toByte rb.toByte) = [0x83#8, ra.toByte, rb.toByte]
    ∧ ∃ v, s.mem.read? (s.x.get rb).toNat = some v
      ∧ exec (.ld ra.toByte rb.toByte) s = .next { s with x := s.x.set ra v, pc := s.pc + 3 }

/-- R213: ST writes the second register's value at the address in the first, also when they are one register, and advances
the pc by 3; in a memory in canonical form that address then reads as the value. -/
def Obligations.StoreResult : Prop :=
  ∀ (ra rb : Reg) (s : State),
    let m := s.mem.put (s.x.get ra).toNat (s.x.get rb)
    encode (.st ra.toByte rb.toByte) = [0x84#8, ra.toByte, rb.toByte]
      ∧ exec (.st ra.toByte rb.toByte) s = .next { s with mem := m, pc := s.pc + 3 }
      ∧ (s.mem.wf → m.read? (s.x.get ra).toNat = some (s.x.get rb))

/-- R214: PRN and PRA each append one event with the register's value and otherwise only advance the pc; no other
instruction acts outside the CORE, on any path. -/
def Obligations.OutputResult : Prop :=
  (∀ (ra : Reg) (s : State),
    exec (.prn ra.toByte) s = .next { s with out := s.out ++ [⟨.prn, s.x.get ra⟩], pc := s.pc + 2 }
      ∧ exec (.pra ra.toByte) s = .next { s with out := s.out ++ [⟨.pra, s.x.get ra⟩], pc := s.pc + 2 })
  ∧ ∀ (i : Instr) (s t : State), (∀ a, i ≠ .prn a) → (∀ a, i ≠ .pra a) → exec i s = .next t → t.out = s.out

/-- R220 and R222: NOP only advances the pc; HLT halts with reason HLT, the pc where it is, the host receives success and
no instruction executes after it. -/
def Obligations.NopHltResult : Prop :=
  ∀ s : State, encode .nop = [0x00#8] ∧ encode .hlt = [0x01#8]
    ∧ exec .nop s = .next { s with pc := s.pc + 1 }
    ∧ ∃ t, exec .hlt s = .next t ∧ t = { s with run := .halted, why := .hlt } ∧ t.result = some .success
      ∧ ∀ u, step t ≠ .next u

/-- Frame of the data movements, output, INT, NOP and HLT (R53, R210), on every path: LDI and LD change no register but the
one the first operand names, INT none but R6, the others none; FL is unchanged; ST changes no byte but the one at the
address in its first register, the others none. -/
def Obligations.DataFrame : Prop :=
  ∀ (a b : Byte) (s t : State) (i : Instr),
    (i ∈ [.ldi a b, .ld a b, .st a b, .prn a, .pra a, .int a, .nop, .hlt]) → exec i s = .next t →
    (∀ q : Reg, (i = .ldi a b ∨ i = .ld a b → a ≠ q.toByte) → (i = .int a → q ≠ .r6) → t.x.get q = s.x.get q)
      ∧ t.fl = s.fl
      ∧ (∀ c : Nat, (i = .st a b → ∀ ra : Reg, a = ra.toByte → c ≠ (s.x.get ra).toNat) →
          t.mem.read? c = s.mem.read? c)
      ∧ (i ≠ .prn a → i ≠ .pra a → t.out = s.out)

/-- R60: a load reads the byte most recently stored: ST, then LD of the same address into any register whose operands still
hold that address, gives the value stored. -/
def Obligations.StoreThenLoadReads : Prop :=
  ∀ (ra rb rc : Reg) (s : State), s.mem.wf →
    ∃ t u, exec (.st ra.toByte rb.toByte) s = .next t ∧ exec (.ld rc.toByte ra.toByte) t = .next u
      ∧ u.x.get rc = s.x.get rb ∧ u.pc = s.pc + 6

/-- R63 (an inference of the spec): the next fetch sees a store. Where ST stores an opcode without operands at the address
right after itself, the next step runs that instruction. -/
def Obligations.StoreSeenByNextFetch : Prop :=
  ∀ (ra rb : Reg) (s : State) (i : Instr), s.mem.wf → s.run = .running → s.pc + 3 = (s.x.get ra).toNat →
    encode i = [s.x.get rb] →
    ∃ t, exec (.st ra.toByte rb.toByte) s = .next t ∧ step t = exec i t

/-! ### The whole machine -/

/-- R39: the state after reset, and with a program loaded. The values of the registers, the pc and FL are the spec's
defaults D3 to D6 (log entries 2 to 4). -/
def Obligations.ResetState : Prop :=
  (∀ a, a < 256 → State.reset.mem.read? a = some 0#8)
    ∧ (∀ r : Reg, State.reset.x.get r = if r = .r7 then 0xF4#8 else 0#8)
    ∧ State.reset.pc = 0
    ∧ State.reset.fl = ⟨false, false, false⟩
    ∧ State.reset.run = .running
    ∧ State.reset.why = .none
    ∧ State.reset.out = []
    ∧ ∀ (p : List Byte) (s : State), hostLoadProgram State.reset p = some s →
      (∀ k, k < p.length → s.mem.read? k = p[k]?) ∧ (∀ k, p.length ≤ k → k < 256 → s.mem.read? k = some 0#8)
        ∧ s = { State.reset with mem := s.mem }

/-- The state after reset meets the invariants: pc in 0..256 (R30), no halt reason while RUNNING (R34), at most one flag set,
and memory in canonical form. That last clause is the model's choice of how to hold memory, not the spec's: log entry 9
(DESIGN CHOICE). -/
def Obligations.ResetMeetsInvariants : Prop :=
  State.reset.Inv ∧ State.reset.fl.exclusive

/-- Every step keeps the invariant: the pc stays in 0..256 (R30), the halt reason agrees with the run-state and the fault
record with its cause and with the pc (R34, R241 to R245), and memory stays in canonical form. That last clause is the
model's choice of how to hold memory, not the spec's: log entry 9 (DESIGN CHOICE). The named forms of a record's detail are
the model's too: log entry 8 (DESIGN CHOICE). -/
def Obligations.StepKeepsInvariant : Prop :=
  ∀ s t : State, s.Inv → step s = .next t → t.Inv

/-- Every step keeps at most one of E, G, L set (R31, C13). For IRET this rests on the default of IRET_RESTORES_FL (log
entry 11). -/
def Obligations.StepKeepsFlagsExclusive : Prop :=
  ∀ s t : State, s.fl.exclusive → step s = .next t → t.fl.exclusive

/-- R53's column of writes: on every path, no instruction but ST, PUSH and CALL changes a byte of memory, ST only the one at
the address in its first register, PUSH and CALL only the one at the decremented SP. -/
def Obligations.OnlyStoresWriteMemory : Prop :=
  ∀ (i : Instr) (s t : State) (c : Nat), exec i s = .next t →
    (match i with
      | .st a _ => ∀ ra : Reg, a = ra.toByte → c ≠ (s.x.get ra).toNat
      | .push _ => c ≠ s.pushAddr.toNat
      | .call _ => c ≠ s.pushAddr.toNat
      | _ => True) →
    t.mem.read? c = s.mem.read? c

/-- R73: the size is 1 plus the operand count, and an instruction that sets no pc itself and does not halt advances the pc
by its size. -/
def Obligations.DefaultAdvanceIsSize : Prop :=
  ∀ (i : Instr) (s t : State),
    (∃ row, lookupOpcode i.opcode = some row ∧ i.size = 1 + row.format.operands) ∧
    (exec i s = .next t → t.run = .running →
      match i with
      | .jmp _ | .jeq _ | .jne _ | .jgt _ | .jlt _ | .jle _ | .jge _ | .call _ | .ret | .iret => True
      | i => t.pc = s.pc + i.size)

/-- R35: the output is empty at reset, only PRN and PRA append to it, nothing is taken from it, and no instruction can read
it: the rest of the next state and what is appended do not depend on it. -/
def Obligations.OutputOnlyGrowsUnread : Prop :=
  State.reset.out = [] ∧
  ∀ (i : Instr) (s t : State), exec i s = .next t →
    ∃ added : List OutEvent, t.out = s.out ++ added
      ∧ (added ≠ [] → ∃ a, i = .prn a ∨ i = .pra a)
      ∧ ∀ o : List OutEvent, exec i { s with out := o } = .next { t with out := o ++ added }

/-- R272: a program of at most 256 bytes is written at consecutive addresses from 0, every other cell keeps its byte and
nothing but memory is touched; a longer one is not loaded. That the loaded memory is in canonical form, and the premise that
it was before, are about the model's choice of how to hold memory, not the spec's: log entry 9 (DESIGN CHOICE). -/
def Obligations.ProgramLoadsFromZero : Prop :=
  ∀ (p : List Byte) (s : State), s.mem.wf →
    (p.length ≤ 256 → ∃ t, hostLoadProgram s p = some t
      ∧ (∀ k, k < p.length → t.mem.read? k = p[k]?)
      ∧ (∀ k, p.length ≤ k → t.mem.read? k = s.mem.read? k)
      ∧ t = { s with mem := t.mem } ∧ t.mem.wf)
    ∧ (256 < p.length → hostLoadProgram s p = none)

/-- The run loop of R108 (40_cycle.md), in the model's form of it: a run cut off after at most `n` steps, which is the model's
choice, log entry 14 (DESIGN CHOICE). It returns exactly when some number of steps within that bound reaches HALTED, then
success after HLT and the fault record otherwise. The bound, and the clause that a longer run returns the same, rest on
that entry and are not the rule's. -/
def Obligations.RunReturnsAtHalt : Prop :=
  ∀ (s : State) (n : Nat) (r : RunResult),
    (hostRun n s = some r ↔
      ∃ k t, k ≤ n ∧ hostSteps k s = some t ∧ t.run = .halted
        ∧ ((t.why = .hlt ∧ r = .success) ∨ ∃ f, t.why = .fault f ∧ r = .fault f))
    ∧ ∀ m, hostRun n s = some r → hostRun (n + m) s = some r

/-! ### The parameters of R6 -/

/-- `SP_INIT` and `REG_RESET` are arguments of reset: R7 starts at the one, R0 to R6 at the other, and nothing else after
reset depends on a parameter. -/
def Obligations.ResetTakesParameters : Prop :=
  ∀ p : Params,
    (∀ r : Reg, (State.resetWith p).x.get r = if r = .r7 then p.spInit else p.regReset)
      ∧ State.resetWith p = { State.reset with x := (State.resetWith p).x }

/-- `OPCODE_MAP` is an argument of decoding, here any injective map with the stated arities (D2): with every opcode byte
replaced by its image, the bytes of an instruction decode to it whatever follows, and a byte that is no instruction's
opcode decodes to none. -/
def Obligations.DecodeUnderAnyOpcodeMap : Prop :=
  ∀ f : Byte → Byte, Function.Injective f →
    (∀ (i : Instr) (rest : List Byte),
      decode (f i.opcode :: i.operandBytes ++ rest) (renamedTable f) = .ok (i, rest))
    ∧ ∀ (op : Byte) (rest : List Byte), (∀ i : Instr, op ≠ f i.opcode) →
      decode (op :: rest) (renamedTable f) = .error (.unknownOpcode op)

/-- The complete step of R106 for any parameters: with any injective `OPCODE_MAP`, and any `INT_RECORD` and
`IRET_RESTORES_FL`, a RUNNING CORE whose bytes at the pc are an instruction's executes it, one at a byte that is no opcode
of the map halts with UnknownOpcode and nothing else, and a HALTED one has no step. -/
def Obligations.StepUnderAnyParameters : Prop :=
  ∀ (p : Params) (f : Byte → Byte), Function.Injective f → p.opcodeMap = renamedTable f → ∀ s : State,
    (s.run = .running →
      (∀ i : Instr, (∀ k, k < i.size → s.mem.read? (s.pc + k) = (f i.opcode :: i.operandBytes)[k]?) →
        stepWith s p = execWith i s (f i.opcode) p)
      ∧ ∀ op : Byte, s.mem.read? s.pc = some op → (∀ i : Instr, op ≠ f i.opcode) →
        stepWith s p = .next { s with
          run := .halted
          why := .fault { kind := .unknownOpcode, opcode := some op, fpc := s.pc, detail := .none } })
    ∧ (s.run = .halted → ∀ t, stepWith s p ≠ .next t)

/-- Where the parameters act, and that the machine is the one at their defaults: the step at the defaults is `step`; INT
applies `INT_RECORD` to R6; IRET restores FL by `IRET_RESTORES_FL`; the fetched opcode byte goes into fault records; any
other instruction that faults on no operand does the same whatever the parameters are. -/
def Obligations.ParametersActOnlyWhereNamed : Prop :=
  (∀ s : State, stepWith s = step s)
  ∧ ∀ (s : State) (op : Byte) (p : Params),
    (∀ r : Reg, execWith (.int r.toByte) s op p = .next { s with
        x := s.x.set .r6 (p.intRecord (s.x.get .r6) (s.x.get r))
        pc := s.pc + 2 })
    ∧ execWith .iret s op p = .next (s.returnFromInterrupt p.iretRestoresFl)
    ∧ (∀ (i : Instr) (b : Byte), i.firstBadOperand = some b → execWith i s op p = .next { s with
        run := .halted
        why := .fault { kind := .addressingFault, opcode := some op, fpc := s.pc, detail := .registerIndex b } })
    ∧ (∀ (i : Instr) (ra rb : Reg), i = .div ra.toByte rb.toByte ∨ i = .mod ra.toByte rb.toByte → s.x.get rb = 0#8 →
        execWith i s op p = .next { s with
          pc := s.pc + 3
          run := .halted
          why := .fault { kind := .arithmeticError, opcode := some op, fpc := s.pc, detail := .divisor rb } })
    ∧ ∀ i : Instr, i.wellFormed = true → (∀ a, i ≠ .int a) → i ≠ .iret →
        (∀ (a : Byte) (rb : Reg), i = .div a rb.toByte ∨ i = .mod a rb.toByte → s.x.get rb ≠ 0#8) →
        execWith i s op p = exec i s
end

