-- ==== Sys2Proof/Laws/Decode.lean ====
section
/-! SUPPORT. The Instruction Table's small facts: no opcode has two rows, and a row found has the opcode asked for. -/

namespace Sys2Proof

/-- No two rows share an opcode byte, so no encoding overlaps another (R71). -/
theorem instructionTable_opcodes_distinct :
    instructionTable.Pairwise (fun p q => p.opcode ≠ q.opcode) := by decide

theorem instructionTable_length : instructionTable.length = 34 := rfl

/-- A row that is found is a row of the table and has the opcode asked for. -/
theorem lookupOpcode_eq_some {op : Byte} {row : TableRow} (h : lookupOpcode op = some row) :
    row ∈ instructionTable ∧ row.opcode = op :=
  ⟨List.mem_of_find?_eq_some h, by simpa using List.find?_some h⟩

/-- The operand bytes of an instruction are its register operands, but for LDI's literal. -/
theorem regOperands_sublist (i : Instr) : i.regOperands.Sublist i.operandBytes := by
  cases i <;> simp [Instr.regOperands, Instr.operandBytes]

end Sys2Proof
end

