-- ==== Sys2Proof/Laws/Memory.lean ====
section
/-! SUPPORT. Memory: a read after a write, and the canonical form that every memory operation keeps. -/

namespace Sys2Proof.Machine

@[simp] theorem memSize_eq : Config.memSize = 256 := rfl

theorem byte_lt_memSize (a : Byte) : a.toNat < Config.memSize := a.isLt

/-! ### Reads and writes of one byte -/

@[simp] theorem Memory.byteAt_nil (a : Nat) : Memory.byteAt [] a = Config.memReset := rfl

@[simp] theorem Memory.byteAt_cons (b : Nat) (v : Byte) (m : Memory) (a : Nat) :
    Memory.byteAt ((b, v) :: m) a = if b = a then v else m.byteAt a := rfl

/-- Below every listed address a cell holds its reset value. -/
theorem Memory.byteAt_of_lt {m : Memory} {a : Nat} (h : ∀ p ∈ m, a < p.1) : m.byteAt a = Config.memReset := by
  induction m with
  | nil => rfl
  | cons p m ih =>
    obtain ⟨b, v⟩ := p
    have hb : a < b := h (b, v) (by simp)
    rw [Memory.byteAt_cons, if_neg (by omega)]
    exact ih (fun q hq => h q (by simp [hq]))

theorem Memory.byteAt_consCell_ne {a c : Nat} (v : Byte) (m : Memory) (h : c ≠ a) :
    (Memory.consCell a v m).byteAt c = m.byteAt c := by
  unfold Memory.consCell
  split
  · rfl
  · rw [Memory.byteAt_cons, if_neg (Ne.symm h)]

theorem Memory.byteAt_consCell_self {a : Nat} (v : Byte) {m : Memory} (h : ∀ p ∈ m, a < p.1) :
    (Memory.consCell a v m).byteAt a = v := by
  unfold Memory.consCell
  split
  · next hv => rw [Memory.byteAt_of_lt h, hv]
  · simp

/-- A write leaves every other address alone. -/
theorem Memory.byteAt_put_ne {m : Memory} {a c : Nat} (v : Byte) (h : c ≠ a) :
    (m.put a v).byteAt c = m.byteAt c := by
  induction m with
  | nil => exact Memory.byteAt_consCell_ne v [] h
  | cons p m ih =>
    obtain ⟨b, w⟩ := p
    unfold Memory.put
    split
    · exact Memory.byteAt_consCell_ne v _ h
    · split
      · next hab => rw [Memory.byteAt_consCell_ne v m h, Memory.byteAt_cons, if_neg (by omega)]
      · rw [Memory.byteAt_cons, Memory.byteAt_cons, ih]

/-- In a memory with rising addresses a read gives the byte last written. -/
theorem Memory.byteAt_put_self {m : Memory} (hm : m.Pairwise (fun p q => p.1 < q.1)) (a : Nat) (v : Byte) :
    (m.put a v).byteAt a = v := by
  induction m with
  | nil => exact Memory.byteAt_consCell_self v (by simp)
  | cons p m ih =>
    obtain ⟨b, w⟩ := p
    obtain ⟨hb, hm'⟩ := List.pairwise_cons.mp hm
    unfold Memory.put
    split
    · next hab =>
      refine Memory.byteAt_consCell_self v ?_
      intro q hq
      rcases List.mem_cons.mp hq with rfl | hq
      · exact hab
      · exact Nat.lt_trans hab (hb q hq)
    · split
      · next hab => exact Memory.byteAt_consCell_self v (fun q hq => by simpa [hab] using hb q hq)
      · next hab => rw [Memory.byteAt_cons, if_neg (Ne.symm hab), ih hm']

theorem Memory.byteAt_put {m : Memory} (hm : m.wf) (a : Nat) (v : Byte) (c : Nat) :
    (m.put a v).byteAt c = if c = a then v else m.byteAt c := by
  split
  · next h => rw [h, Memory.byteAt_put_self hm.1]
  · next h => exact Memory.byteAt_put_ne v h

/-! ### The canonical form -/

theorem Memory.mem_consCell {a : Nat} {v : Byte} {m : Memory} {p : Host.Cell} (h : p ∈ Memory.consCell a v m) :
    (p = (a, v) ∧ v ≠ Config.memReset) ∨ p ∈ m := by
  unfold Memory.consCell at h
  split at h
  · exact Or.inr h
  · next hv => exact (List.mem_cons.mp h).imp (fun e => ⟨e, hv⟩) id

theorem Memory.consCell_pairwise {a : Nat} {v : Byte} {m : Memory} (hm : m.Pairwise (fun p q => p.1 < q.1))
    (h : ∀ p ∈ m, a < p.1) : (Memory.consCell a v m).Pairwise (fun p q => p.1 < q.1) := by
  unfold Memory.consCell
  split
  · exact hm
  · exact List.pairwise_cons.mpr ⟨h, hm⟩

theorem Memory.mem_put {m : Memory} {a : Nat} {v : Byte} {p : Host.Cell} (h : p ∈ m.put a v) :
    (p = (a, v) ∧ v ≠ Config.memReset) ∨ p ∈ m := by
  induction m with
  | nil => exact Memory.mem_consCell h
  | cons q m ih =>
    obtain ⟨b, w⟩ := q
    unfold Memory.put at h
    split at h
    · exact Memory.mem_consCell h
    · split at h
      · exact (Memory.mem_consCell h).imp id (fun hp => List.mem_cons_of_mem _ hp)
      · rcases List.mem_cons.mp h with rfl | hp
        · exact Or.inr (by simp)
        · exact (ih hp).imp id (fun hp => List.mem_cons_of_mem _ hp)

theorem Memory.put_pairwise {m : Memory} (hm : m.Pairwise (fun p q => p.1 < q.1)) (a : Nat) (v : Byte) :
    (m.put a v).Pairwise (fun p q => p.1 < q.1) := by
  induction m with
  | nil => exact Memory.consCell_pairwise hm (by simp)
  | cons q m ih =>
    obtain ⟨b, w⟩ := q
    obtain ⟨hb, hm'⟩ := List.pairwise_cons.mp hm
    unfold Memory.put
    split
    · next hab =>
      refine Memory.consCell_pairwise hm ?_
      intro p hp
      rcases List.mem_cons.mp hp with rfl | hp
      · exact hab
      · exact Nat.lt_trans hab (hb p hp)
    · split
      · next hab => exact Memory.consCell_pairwise hm' (fun p hp => by simpa [hab] using hb p hp)
      · next hlt hne =>
        refine List.pairwise_cons.mpr ⟨?_, ih hm'⟩
        intro p hp
        rcases Memory.mem_put hp with ⟨rfl, _⟩ | hp
        · exact Nat.lt_of_le_of_ne (Nat.le_of_not_lt hlt) (Ne.symm hne)
        · exact hb p hp

/-- A write to an address that exists keeps the canonical form. -/
theorem Memory.put_wf {m : Memory} (hm : m.wf) {a : Nat} (ha : a < Config.memSize) (v : Byte) : (m.put a v).wf := by
  refine ⟨Memory.put_pairwise hm.1 a v, ?_⟩
  intro p hp
  rcases Memory.mem_put hp with ⟨rfl, hv⟩ | hp
  · exact ⟨ha, hv⟩
  · exact hm.2 p hp

theorem Memory.write?_wf {m m' : Memory} (hm : m.wf) {a : Nat} {v : Byte} (h : m.write? a v = some m') : m'.wf := by
  unfold Memory.write? at h
  split at h
  · next ha => exact Option.some.inj h ▸ Memory.put_wf hm ha v
  · cases h

theorem State.setMem_wf {s : State} (h : s.mem.wf) (a v : Byte) : (s.setMem a v).mem.wf :=
  Memory.put_wf h (byte_lt_memSize a) v

theorem State.putBytes_wf {s : State} (h : s.mem.wf) (a : Nat) (bs : List Byte) : (s.putBytes a bs).mem.wf := by
  induction bs generalizing s a with
  | nil => exact h
  | cons v bs ih =>
    refine ih ?_ (a + 1)
    show ((s.mem.write? a v).getD s.mem).wf
    cases hw : s.mem.write? a v with
    | none => exact h
    | some m => exact Memory.write?_wf h hw

theorem State.reset_mem_wf : State.reset.mem.wf := by decide

/-- In canonical form two memories with the same bytes are equal: equal memories are equal data. -/
theorem Memory.ext_byteAt {m n : Memory} (hm : m.wf) (hn : n.wf) (h : ∀ a, m.byteAt a = n.byteAt a) : m = n := by
  have tail {b : Nat} {v : Byte} {m : Memory} (hm : Memory.wf ((b, v) :: m)) : Memory.wf m ∧ ∀ p ∈ m, b < p.1 :=
    ⟨⟨(List.pairwise_cons.mp hm.1).2, fun p hp => hm.2 p (by simp [hp])⟩, (List.pairwise_cons.mp hm.1).1⟩
  induction m generalizing n with
  | nil =>
    cases n with
    | nil => rfl
    | cons q n =>
      obtain ⟨c, w⟩ := q
      exact absurd (by simpa using (h c).symm) (hn.2 (c, w) (by simp)).2
  | cons p m ih =>
    obtain ⟨b, v⟩ := p
    have hv : v ≠ Config.memReset := (hm.2 (b, v) (by simp)).2
    cases n with
    | nil => exact absurd (by simpa using h b) hv
    | cons q n =>
      obtain ⟨c, w⟩ := q
      have hw : w ≠ Config.memReset := (hn.2 (c, w) (by simp)).2
      obtain ⟨hm', hbm⟩ := tail hm
      obtain ⟨hn', hcn⟩ := tail hn
      have hbc : b = c := by
        rcases Nat.lt_trichotomy b c with hlt | heq | hgt
        · have := h b
          rw [Memory.byteAt_cons, if_pos rfl, Memory.byteAt_cons, if_neg (by omega),
            Memory.byteAt_of_lt (fun p hp => Nat.lt_trans hlt (hcn p hp))] at this
          exact absurd this hv
        · exact heq
        · have := h c
          rw [Memory.byteAt_cons, if_neg (by omega), Memory.byteAt_of_lt (fun p hp => Nat.lt_trans hgt (hbm p hp)),
            Memory.byteAt_cons, if_pos rfl] at this
          exact absurd this.symm hw
      subst hbc
      have hvw : v = w := by simpa using h b
      subst hvw
      rw [ih hm' hn' ?_]
      intro a
      by_cases hab : b = a
      · subst hab
        rw [Memory.byteAt_of_lt hbm, Memory.byteAt_of_lt hcn]
      · simpa [hab] using h a

/-! ### The primitives of R51 -/

@[simp] theorem Memory.read?_of_lt {m : Memory} {a : Nat} (h : a < 256) : m.read? a = some (m.byteAt a) := if_pos h

@[simp] theorem Memory.read?_of_ge {m : Memory} {a : Nat} (h : 256 ≤ a) : m.read? a = none :=
  if_neg (Nat.not_lt.mpr h)

theorem Memory.bytesFrom_succ (m : Memory) (a n : Nat) :
    m.bytesFrom a (n + 1) = if a < 256 then m.byteAt a :: m.bytesFrom (a + 1) n else [] := by
  rw [Memory.bytesFrom]
  by_cases h : a < 256
  · rw [Memory.read?_of_lt h, if_pos h]
  · rw [Memory.read?_of_ge (Nat.le_of_not_lt h), if_neg h]

theorem Memory.bytesFrom_length_le (m : Memory) (a n : Nat) : (m.bytesFrom a n).length ≤ n := by
  induction n generalizing a with
  | zero => simp [Memory.bytesFrom]
  | succ n ih =>
    rw [Memory.bytesFrom_succ]
    split
    · simpa using ih (a + 1)
    · simp

/-- The collected bytes all exist: the pc past them is at most 256. -/
theorem Memory.bytesFrom_length_range (m : Memory) {a : Nat} (h : a ≤ 256) (n : Nat) :
    a + (m.bytesFrom a n).length ≤ 256 := by
  induction n generalizing a with
  | zero => simpa [Memory.bytesFrom] using h
  | succ n ih =>
    rw [Memory.bytesFrom_succ]
    split
    · next ha =>
      have := ih (show a + 1 ≤ 256 by omega)
      simp only [List.length_cons]
      omega
    · simpa using h

end Sys2Proof.Machine
end

