-- ==== Sys2Proof/Laws/Regs.lean ====
section
/-! SUPPORT. The register file: a read after a write, and the naming of registers by operand bytes. -/

namespace Sys2Proof

@[simp] theorem Reg.ofByte?_toByte (r : Reg) : Reg.ofByte? r.toByte = some r := by
  cases r <;> rfl

theorem Reg.toByte_toNat_lt (r : Reg) : r.toByte.toNat < 8 := by
  cases r <;> decide

/-- An operand byte below 8 is the byte of a register. -/
theorem Reg.exists_toByte {b : Byte} (h : b.toNat < 8) : ∃ r : Reg, b = r.toByte := by
  obtain ⟨n, rfl⟩ : ∃ n : Fin 8, b = BitVec.ofNat 8 n.val :=
    ⟨⟨b.toNat, h⟩, by simp⟩
  revert n
  have key : ∀ n : Fin 8, Reg.ofByte? (BitVec.ofNat 8 n.val) ≠ none
      ∧ ∀ r, Reg.ofByte? (BitVec.ofNat 8 n.val) = some r → BitVec.ofNat 8 n.val = r.toByte := by
    intro n
    fin_cases n <;> simp [Reg.ofByte?, Reg.toByte]
  intro n _
  cases hr : Reg.ofByte? (BitVec.ofNat 8 n.val) with
  | none => exact absurd hr (key n).1
  | some r => exact ⟨r, (key n).2 r hr⟩

/-- An operand byte of 8 or more names no register. -/
theorem Reg.ofByte?_eq_none {b : Byte} (h : 8 ≤ b.toNat) : Reg.ofByte? b = none := by
  unfold Reg.ofByte?
  split <;> first | rfl | omega

theorem Reg.ofByte?_eq_some {b : Byte} {r : Reg} (h : Reg.ofByte? b = some r) : b = r.toByte := by
  rcases Nat.lt_or_ge b.toNat 8 with hb | hb
  · obtain ⟨r', rfl⟩ := Reg.exists_toByte hb
    rw [Reg.ofByte?_toByte] at h
    cases h
    rfl
  · rw [Reg.ofByte?_eq_none hb] at h
    cases h

namespace Machine

@[simp] theorem Regs.get_set_self (x : Regs) (r : Reg) (v : Byte) : (x.set r v).get r = v := by
  cases r <;> rfl

@[simp] theorem Regs.get_set_ne (x : Regs) {r q : Reg} (v : Byte) (h : q ≠ r) : (x.set r v).get q = x.get q := by
  cases r <;> cases q <;> first | rfl | exact absurd rfl h

theorem Regs.get_set (x : Regs) (r q : Reg) (v : Byte) :
    (x.set r v).get q = if q = r then v else x.get q := by
  split
  · next h => rw [h, Regs.get_set_self]
  · next h => exact Regs.get_set_ne x v h

@[simp] theorem Regs.set_set_self (x : Regs) (r : Reg) (v w : Byte) : (x.set r v).set r w = x.set r w := by
  cases r <;> rfl

@[simp] theorem Regs.set_get_self (x : Regs) (r : Reg) : x.set r (x.get r) = x := by
  cases r <;> rfl

theorem Regs.set_comm (x : Regs) {r q : Reg} (v w : Byte) (h : r ≠ q) :
    (x.set r v).set q w = (x.set q w).set r v := by
  cases r <;> cases q <;> first | rfl | exact absurd rfl h

/-- Two register files that agree on every register are equal. -/
theorem Regs.ext_get {x y : Regs} (h : ∀ r, x.get r = y.get r) : x = y := by
  have h0 := h .r0
  have h1 := h .r1
  have h2 := h .r2
  have h3 := h .r3
  have h4 := h .r4
  have h5 := h .r5
  have h6 := h .r6
  have h7 := h .r7
  cases x
  cases y
  simp_all [Regs.get]

end Machine

end Sys2Proof
end

