-- ==== Sys2Proof/Laws/State.lean ====
section
/-! SUPPORT. One lemma per field of State per update, and the accessors over them, so that no later proof unfolds a record
update. -/

namespace Sys2Proof.Machine

variable (s : State)

/-! ### setReg -/

@[simp] theorem State.setReg_mem (r : Reg) (v : Byte) : (s.setReg r v).mem = s.mem := rfl
@[simp] theorem State.setReg_x (r : Reg) (v : Byte) : (s.setReg r v).x = s.x.set r v := rfl
@[simp] theorem State.setReg_pc (r : Reg) (v : Byte) : (s.setReg r v).pc = s.pc := rfl
@[simp] theorem State.setReg_fl (r : Reg) (v : Byte) : (s.setReg r v).fl = s.fl := rfl
@[simp] theorem State.setReg_run (r : Reg) (v : Byte) : (s.setReg r v).run = s.run := rfl
@[simp] theorem State.setReg_why (r : Reg) (v : Byte) : (s.setReg r v).why = s.why := rfl
@[simp] theorem State.setReg_out (r : Reg) (v : Byte) : (s.setReg r v).out = s.out := rfl

/-! ### setMem -/

@[simp] theorem State.setMem_mem (a v : Byte) : (s.setMem a v).mem = s.mem.put a.toNat v := rfl
@[simp] theorem State.setMem_x (a v : Byte) : (s.setMem a v).x = s.x := rfl
@[simp] theorem State.setMem_pc (a v : Byte) : (s.setMem a v).pc = s.pc := rfl
@[simp] theorem State.setMem_fl (a v : Byte) : (s.setMem a v).fl = s.fl := rfl
@[simp] theorem State.setMem_run (a v : Byte) : (s.setMem a v).run = s.run := rfl
@[simp] theorem State.setMem_why (a v : Byte) : (s.setMem a v).why = s.why := rfl
@[simp] theorem State.setMem_out (a v : Byte) : (s.setMem a v).out = s.out := rfl

/-! ### setFlags -/

@[simp] theorem State.setFlags_mem (f : Flags) : (s.setFlags f).mem = s.mem := rfl
@[simp] theorem State.setFlags_x (f : Flags) : (s.setFlags f).x = s.x := rfl
@[simp] theorem State.setFlags_pc (f : Flags) : (s.setFlags f).pc = s.pc := rfl
@[simp] theorem State.setFlags_fl (f : Flags) : (s.setFlags f).fl = f := rfl
@[simp] theorem State.setFlags_run (f : Flags) : (s.setFlags f).run = s.run := rfl
@[simp] theorem State.setFlags_why (f : Flags) : (s.setFlags f).why = s.why := rfl
@[simp] theorem State.setFlags_out (f : Flags) : (s.setFlags f).out = s.out := rfl

/-! ### advance -/

@[simp] theorem State.advance_mem (n : Nat) : (s.advance n).mem = s.mem := rfl
@[simp] theorem State.advance_x (n : Nat) : (s.advance n).x = s.x := rfl
@[simp] theorem State.advance_pc (n : Nat) : (s.advance n).pc = s.pc + n := rfl
@[simp] theorem State.advance_fl (n : Nat) : (s.advance n).fl = s.fl := rfl
@[simp] theorem State.advance_run (n : Nat) : (s.advance n).run = s.run := rfl
@[simp] theorem State.advance_why (n : Nat) : (s.advance n).why = s.why := rfl
@[simp] theorem State.advance_out (n : Nat) : (s.advance n).out = s.out := rfl

/-! ### jumpTo -/

@[simp] theorem State.jumpTo_mem (t : Byte) : (s.jumpTo t).mem = s.mem := rfl
@[simp] theorem State.jumpTo_x (t : Byte) : (s.jumpTo t).x = s.x := rfl
@[simp] theorem State.jumpTo_pc (t : Byte) : (s.jumpTo t).pc = t.toNat := rfl
@[simp] theorem State.jumpTo_fl (t : Byte) : (s.jumpTo t).fl = s.fl := rfl
@[simp] theorem State.jumpTo_run (t : Byte) : (s.jumpTo t).run = s.run := rfl
@[simp] theorem State.jumpTo_why (t : Byte) : (s.jumpTo t).why = s.why := rfl
@[simp] theorem State.jumpTo_out (t : Byte) : (s.jumpTo t).out = s.out := rfl

/-! ### emit -/

@[simp] theorem State.emit_mem (k : OutKind) (v : Byte) : (s.emit k v).mem = s.mem := rfl
@[simp] theorem State.emit_x (k : OutKind) (v : Byte) : (s.emit k v).x = s.x := rfl
@[simp] theorem State.emit_pc (k : OutKind) (v : Byte) : (s.emit k v).pc = s.pc := rfl
@[simp] theorem State.emit_fl (k : OutKind) (v : Byte) : (s.emit k v).fl = s.fl := rfl
@[simp] theorem State.emit_run (k : OutKind) (v : Byte) : (s.emit k v).run = s.run := rfl
@[simp] theorem State.emit_why (k : OutKind) (v : Byte) : (s.emit k v).why = s.why := rfl
@[simp] theorem State.emit_out (k : OutKind) (v : Byte) : (s.emit k v).out = s.out ++ [{ kind := k, value := v }] := rfl

/-! ### halt -/

@[simp] theorem State.halt_mem : s.halt.mem = s.mem := rfl
@[simp] theorem State.halt_x : s.halt.x = s.x := rfl
@[simp] theorem State.halt_pc : s.halt.pc = s.pc := rfl
@[simp] theorem State.halt_fl : s.halt.fl = s.fl := rfl
@[simp] theorem State.halt_run : s.halt.run = .halted := rfl
@[simp] theorem State.halt_why : s.halt.why = .hlt := rfl
@[simp] theorem State.halt_out : s.halt.out = s.out := rfl

/-! ### takeException -/

@[simp] theorem State.takeException_mem (k : ExceptionKind) (o : Option Byte) (d : Detail) : (s.takeException k o d).mem = s.mem := rfl
@[simp] theorem State.takeException_x (k : ExceptionKind) (o : Option Byte) (d : Detail) : (s.takeException k o d).x = s.x := rfl
@[simp] theorem State.takeException_pc (k : ExceptionKind) (o : Option Byte) (d : Detail) : (s.takeException k o d).pc = pcAfterException k s.pc := rfl
@[simp] theorem State.takeException_fl (k : ExceptionKind) (o : Option Byte) (d : Detail) : (s.takeException k o d).fl = s.fl := rfl
@[simp] theorem State.takeException_run (k : ExceptionKind) (o : Option Byte) (d : Detail) : (s.takeException k o d).run = .halted := rfl
@[simp] theorem State.takeException_why (k : ExceptionKind) (o : Option Byte) (d : Detail) : (s.takeException k o d).why = .fault { kind := k, opcode := o, fpc := s.pc, detail := d } := rfl
@[simp] theorem State.takeException_out (k : ExceptionKind) (o : Option Byte) (d : Detail) : (s.takeException k o d).out = s.out := rfl

/-! ### Stack pointer updates -/

@[simp] theorem State.sp_eq : s.sp = s.x.get .r7 := rfl
@[simp] theorem State.memAt_eq (a : Byte) : s.memAt a = s.mem.byteAt a.toNat := rfl
@[simp] theorem State.decSp_mem : s.decSp.mem = s.mem := rfl
@[simp] theorem State.decSp_x : s.decSp.x = s.x.set .r7 (s.x.get .r7 - 1#8) := rfl
@[simp] theorem State.decSp_pc : s.decSp.pc = s.pc := rfl
@[simp] theorem State.decSp_fl : s.decSp.fl = s.fl := rfl
@[simp] theorem State.decSp_run : s.decSp.run = s.run := rfl
@[simp] theorem State.decSp_why : s.decSp.why = s.why := rfl
@[simp] theorem State.decSp_out : s.decSp.out = s.out := rfl
@[simp] theorem State.incSp_mem : s.incSp.mem = s.mem := rfl
@[simp] theorem State.incSp_x : s.incSp.x = s.x.set .r7 (s.x.get .r7 + 1#8) := rfl
@[simp] theorem State.incSp_pc : s.incSp.pc = s.pc := rfl
@[simp] theorem State.incSp_fl : s.incSp.fl = s.fl := rfl
@[simp] theorem State.incSp_run : s.incSp.run = s.run := rfl
@[simp] theorem State.incSp_why : s.incSp.why = s.why := rfl
@[simp] theorem State.incSp_out : s.incSp.out = s.out := rfl

end Sys2Proof.Machine
end

