-- ==== Sys2Proof/Laws/Ops.lean ====
section
/-! SUPPORT. One lemma per shared operation that says everything the operation can do; proofs cite these and do not unfold
the operation. -/

namespace Sys2Proof.Machine

variable (s : State)

/-! ### Operand forms -/

@[simp] theorem State.withReg_toByte (op : Byte) (r : Reg) (f : Reg → State) : s.withReg op r.toByte f = f r := by
  simp [State.withReg]

theorem State.withReg_bad (op : Byte) {a : Byte} (h : 8 ≤ a.toNat) (f : Reg → State) :
    s.withReg op a f = s.takeException .addressingFault (some op) (.registerIndex a) := by
  simp [State.withReg, Reg.ofByte?_eq_none h]

/-- A register operand names a register and the effect runs, or it faults with nothing else done. -/
theorem State.withReg_cases (op a : Byte) (f : Reg → State) :
    (∃ r : Reg, a = r.toByte ∧ s.withReg op a f = f r)
      ∨ (8 ≤ a.toNat ∧ s.withReg op a f = s.takeException .addressingFault (some op) (.registerIndex a)) := by
  rcases Nat.lt_or_ge a.toNat 8 with h | h
  · obtain ⟨r, rfl⟩ := Reg.exists_toByte h
    exact Or.inl ⟨r, rfl, s.withReg_toByte op r f⟩
  · exact Or.inr ⟨h, s.withReg_bad op h f⟩

@[simp] theorem State.withRegs_toByte (op : Byte) (ra rb : Reg) (f : Reg → Reg → State) :
    s.withRegs op ra.toByte rb.toByte f = f ra rb := by
  simp [State.withRegs]

/-- Two register operands: both name registers and the effect runs, or the first bad one faults. -/
theorem State.withRegs_cases (op a b : Byte) (f : Reg → Reg → State) :
    (∃ ra rb : Reg, a = ra.toByte ∧ b = rb.toByte ∧ s.withRegs op a b f = f ra rb)
      ∨ (8 ≤ a.toNat ∧ s.withRegs op a b f = s.takeException .addressingFault (some op) (.registerIndex a))
      ∨ (a.toNat < 8 ∧ 8 ≤ b.toNat
          ∧ s.withRegs op a b f = s.takeException .addressingFault (some op) (.registerIndex b)) := by
  rcases s.withReg_cases op a (fun ra => s.withReg op b (fun rb => f ra rb)) with ⟨ra, rfl, ha⟩ | ⟨h, ha⟩
  · rcases s.withReg_cases op b (fun rb => f ra rb) with ⟨rb, rfl, hb⟩ | ⟨h, hb⟩
    · exact Or.inl ⟨ra, rb, rfl, rfl, ha.trans hb⟩
    · exact Or.inr (Or.inr ⟨ra.toByte_toNat_lt, h, ha.trans hb⟩)
  · exact Or.inr (Or.inl ⟨h, ha⟩)

/-! ### ALU shapes -/

@[simp] theorem State.aluBinary_toByte (i : Instr) (op : Byte) (ra rb : Reg) (f : Byte → Byte → Byte) :
    s.aluBinary i ra.toByte rb.toByte f op = (s.setReg ra (f (s.x.get ra) (s.x.get rb))).advance i.size := by
  simp [State.aluBinary]

@[simp] theorem State.aluUnary_toByte (i : Instr) (op : Byte) (ra : Reg) (f : Byte → Byte) :
    s.aluUnary i ra.toByte f op = (s.setReg ra (f (s.x.get ra))).advance i.size := by
  simp [State.aluUnary]

theorem State.aluDivide_zero (i : Instr) (op : Byte) (ra rb : Reg) (f : Byte → Byte → Byte) (h : s.x.get rb = 0#8) :
    s.aluDivide i ra.toByte rb.toByte f op = s.takeException .arithmeticError (some op) (.divisor rb) := by
  simp [State.aluDivide, h]

theorem State.aluDivide_ne_zero (i : Instr) (op : Byte) (ra rb : Reg) (f : Byte → Byte → Byte) (h : s.x.get rb ≠ 0#8) :
    s.aluDivide i ra.toByte rb.toByte f op = (s.setReg ra (f (s.x.get ra) (s.x.get rb))).advance i.size := by
  simp [State.aluDivide, h]

/-! ### Jumps and output -/

@[simp] theorem State.jumpIf_toByte (i : Instr) (op : Byte) (ra : Reg) (c : Flags → Bool) :
    s.jumpIf i ra.toByte c op = if c s.fl = true then s.jumpTo (s.x.get ra) else s.advance i.size := by
  simp [State.jumpIf]

@[simp] theorem State.output_toByte (i : Instr) (op : Byte) (ra : Reg) (k : OutKind) :
    s.output i ra.toByte k op = (s.emit k (s.x.get ra)).advance i.size := by
  simp [State.output]

/-! ### Stack -/

@[simp] theorem State.pushAddr_eq : s.pushAddr = s.x.get .r7 - 1#8 := by
  simp [State.pushAddr]

/-- A push is two writes: SP, then the byte at the new SP. -/
theorem State.push_eq (value : State → Byte) :
    s.push value = (s.setReg .r7 (s.x.get .r7 - 1#8)).setMem (s.x.get .r7 - 1#8)
      (value (s.setReg .r7 (s.x.get .r7 - 1#8))) := by
  simp [State.push, State.decSp]

theorem State.popReg_ne {r : Reg} (h : r ≠ .r7) :
    s.popReg r = (s.setReg r (s.mem.byteAt (s.x.get .r7).toNat)).setReg .r7 (s.x.get .r7 + 1#8) := by
  simp [State.popReg, State.incSp, Regs.get_set_ne _ _ (Ne.symm h)]

theorem State.popReg_r7 :
    s.popReg .r7 = s.setReg .r7 (s.mem.byteAt (s.x.get .r7).toNat + 1#8) := by
  simp [State.popReg, State.incSp, State.setReg]

theorem State.popPc_eq :
    s.popPc = (s.jumpTo (s.mem.byteAt (s.x.get .r7).toNat)).setReg .r7 (s.x.get .r7 + 1#8) := by
  simp [State.popPc, State.incSp]

/-- A pop changes nothing but the register popped into and SP. -/
theorem State.popReg_frame (r : Reg) :
    (s.popReg r).mem = s.mem ∧ (s.popReg r).pc = s.pc ∧ (s.popReg r).fl = s.fl ∧ (s.popReg r).run = s.run
      ∧ (s.popReg r).why = s.why ∧ (s.popReg r).out = s.out :=
  ⟨rfl, rfl, rfl, rfl, rfl, rfl⟩

/-- IRET's register pops in one view: R6 down to R0 take the bytes from SP upward, and SP ends 7 higher. -/
theorem State.restoreRegs_eq :
    restoreOrder.foldl State.popReg s =
      { s with x :=
          { r0 := s.mem.byteAt (s.x.r7 + 6#8).toNat
            r1 := s.mem.byteAt (s.x.r7 + 5#8).toNat
            r2 := s.mem.byteAt (s.x.r7 + 4#8).toNat
            r3 := s.mem.byteAt (s.x.r7 + 3#8).toNat
            r4 := s.mem.byteAt (s.x.r7 + 2#8).toNat
            r5 := s.mem.byteAt (s.x.r7 + 1#8).toNat
            r6 := s.mem.byteAt s.x.r7.toNat
            r7 := s.x.r7 + 7#8 } } := by
  simp [restoreOrder, State.popReg, State.incSp, State.setReg, Regs.set, Regs.get, BitVec.add_assoc]

/-! ### The fields each stack operation leaves and writes -/

@[simp] theorem State.push_mem (value : State → Byte) : (s.push value).mem = s.mem.put (s.x.get .r7 - 1#8).toNat (value s.decSp) := rfl
@[simp] theorem State.push_x (value : State → Byte) : (s.push value).x = s.x.set .r7 (s.x.get .r7 - 1#8) := rfl
@[simp] theorem State.push_pc (value : State → Byte) : (s.push value).pc = s.pc := rfl
@[simp] theorem State.push_fl (value : State → Byte) : (s.push value).fl = s.fl := rfl
@[simp] theorem State.push_run (value : State → Byte) : (s.push value).run = s.run := rfl
@[simp] theorem State.push_why (value : State → Byte) : (s.push value).why = s.why := rfl
@[simp] theorem State.push_out (value : State → Byte) : (s.push value).out = s.out := rfl

@[simp] theorem State.popReg_mem (r : Reg) : (s.popReg r).mem = s.mem := rfl
@[simp] theorem State.popReg_pc (r : Reg) : (s.popReg r).pc = s.pc := rfl
@[simp] theorem State.popReg_fl (r : Reg) : (s.popReg r).fl = s.fl := rfl
@[simp] theorem State.popReg_run (r : Reg) : (s.popReg r).run = s.run := rfl
@[simp] theorem State.popReg_why (r : Reg) : (s.popReg r).why = s.why := rfl
@[simp] theorem State.popReg_out (r : Reg) : (s.popReg r).out = s.out := rfl

@[simp] theorem State.popPc_mem : s.popPc.mem = s.mem := rfl
@[simp] theorem State.popPc_x : s.popPc.x = s.x.set .r7 (s.x.get .r7 + 1#8) := rfl
@[simp] theorem State.popPc_pc : s.popPc.pc = (s.mem.byteAt (s.x.get .r7).toNat).toNat := rfl
@[simp] theorem State.popPc_fl : s.popPc.fl = s.fl := rfl
@[simp] theorem State.popPc_run : s.popPc.run = s.run := rfl
@[simp] theorem State.popPc_why : s.popPc.why = s.why := rfl
@[simp] theorem State.popPc_out : s.popPc.out = s.out := rfl

@[simp] theorem State.popFlags_mem : s.popFlags.mem = s.mem := rfl
@[simp] theorem State.popFlags_x : s.popFlags.x = s.x.set .r7 (s.x.get .r7 + 1#8) := rfl
@[simp] theorem State.popFlags_pc : s.popFlags.pc = s.pc := rfl
@[simp] theorem State.popFlags_fl : s.popFlags.fl = Flags.unpack (s.mem.byteAt (s.x.get .r7).toNat) := rfl
@[simp] theorem State.popFlags_run : s.popFlags.run = s.run := rfl
@[simp] theorem State.popFlags_why : s.popFlags.why = s.why := rfl
@[simp] theorem State.popFlags_out : s.popFlags.out = s.out := rfl

@[simp] theorem State.recordInterrupt_mem (record : Byte → Byte → Byte) (r : Reg) : (s.recordInterrupt record r).mem = s.mem := rfl
@[simp] theorem State.recordInterrupt_x (record : Byte → Byte → Byte) (r : Reg) : (s.recordInterrupt record r).x = s.x.set .r6 (record (s.x.get .r6) (s.x.get r)) := rfl
@[simp] theorem State.recordInterrupt_pc (record : Byte → Byte → Byte) (r : Reg) : (s.recordInterrupt record r).pc = s.pc := rfl
@[simp] theorem State.recordInterrupt_fl (record : Byte → Byte → Byte) (r : Reg) : (s.recordInterrupt record r).fl = s.fl := rfl
@[simp] theorem State.recordInterrupt_run (record : Byte → Byte → Byte) (r : Reg) : (s.recordInterrupt record r).run = s.run := rfl
@[simp] theorem State.recordInterrupt_why (record : Byte → Byte → Byte) (r : Reg) : (s.recordInterrupt record r).why = s.why := rfl
@[simp] theorem State.recordInterrupt_out (record : Byte → Byte → Byte) (r : Reg) : (s.recordInterrupt record r).out = s.out := rfl

/-- IRET writes registers, the pc and, only when its parameter says so, FL. -/
theorem State.returnFromInterrupt_frame (restoresFl : Bool) :
    (s.returnFromInterrupt restoresFl).mem = s.mem ∧ (s.returnFromInterrupt restoresFl).run = s.run
      ∧ (s.returnFromInterrupt restoresFl).why = s.why ∧ (s.returnFromInterrupt restoresFl).out = s.out
      ∧ (restoresFl = false → (s.returnFromInterrupt restoresFl).fl = s.fl) := by
  unfold State.returnFromInterrupt
  rw [State.restoreRegs_eq]
  cases restoresFl <;> simp

end Sys2Proof.Machine
end

