-- ==== Sys2Proof/Laws/Parameters.lean ====
section
/-! SUPPORT. The parameterised machine: its state after reset field by field, and its dispatch at the defaults. -/

namespace Sys2Proof.Machine

variable (p : Params)

@[simp] theorem State.resetWith_mem : (State.resetWith p).mem = [] := rfl
@[simp] theorem State.resetWith_pc : (State.resetWith p).pc = Config.pcReset := rfl
@[simp] theorem State.resetWith_fl : (State.resetWith p).fl = ⟨false, false, false⟩ := rfl
@[simp] theorem State.resetWith_run : (State.resetWith p).run = .running := rfl
@[simp] theorem State.resetWith_why : (State.resetWith p).why = .none := rfl
@[simp] theorem State.resetWith_out : (State.resetWith p).out = [] := rfl

/-- At the defaults, with the instruction's own opcode byte, the parameterised dispatch is `exec`. -/
@[simp] theorem execWith_default (i : Instr) (s : State) : execWith i s = exec i s := by
  cases i <;> rfl

end Sys2Proof.Machine
end

