-- ==== Sys2Proof/Laws/PerInstr.lean ====
section
/-! SUPPORT. Per-instruction facts about the syntax, one lemma per constructor. -/

namespace Sys2Proof.Laws

/-- The table lists an instruction's opcode, in a row of its own operand count. -/
def OpcodeListed.Statement (i : Instr) : Prop :=
  ∃ row, lookupOpcode i.opcode = some row ∧ 1 + row.format.operands = i.size

theorem OpcodeListed.nop : OpcodeListed.Statement .nop := ⟨_, rfl, rfl⟩
theorem OpcodeListed.hlt : OpcodeListed.Statement .hlt := ⟨_, rfl, rfl⟩
theorem OpcodeListed.ret : OpcodeListed.Statement .ret := ⟨_, rfl, rfl⟩
theorem OpcodeListed.iret : OpcodeListed.Statement .iret := ⟨_, rfl, rfl⟩
theorem OpcodeListed.push (a : Byte) : OpcodeListed.Statement (.push a) := ⟨_, rfl, rfl⟩
theorem OpcodeListed.pop (a : Byte) : OpcodeListed.Statement (.pop a) := ⟨_, rfl, rfl⟩
theorem OpcodeListed.prn (a : Byte) : OpcodeListed.Statement (.prn a) := ⟨_, rfl, rfl⟩
theorem OpcodeListed.pra (a : Byte) : OpcodeListed.Statement (.pra a) := ⟨_, rfl, rfl⟩
theorem OpcodeListed.call (a : Byte) : OpcodeListed.Statement (.call a) := ⟨_, rfl, rfl⟩
theorem OpcodeListed.int (a : Byte) : OpcodeListed.Statement (.int a) := ⟨_, rfl, rfl⟩
theorem OpcodeListed.jmp (a : Byte) : OpcodeListed.Statement (.jmp a) := ⟨_, rfl, rfl⟩
theorem OpcodeListed.jeq (a : Byte) : OpcodeListed.Statement (.jeq a) := ⟨_, rfl, rfl⟩
theorem OpcodeListed.jne (a : Byte) : OpcodeListed.Statement (.jne a) := ⟨_, rfl, rfl⟩
theorem OpcodeListed.jgt (a : Byte) : OpcodeListed.Statement (.jgt a) := ⟨_, rfl, rfl⟩
theorem OpcodeListed.jlt (a : Byte) : OpcodeListed.Statement (.jlt a) := ⟨_, rfl, rfl⟩
theorem OpcodeListed.jle (a : Byte) : OpcodeListed.Statement (.jle a) := ⟨_, rfl, rfl⟩
theorem OpcodeListed.jge (a : Byte) : OpcodeListed.Statement (.jge a) := ⟨_, rfl, rfl⟩
theorem OpcodeListed.inc (a : Byte) : OpcodeListed.Statement (.inc a) := ⟨_, rfl, rfl⟩
theorem OpcodeListed.dec (a : Byte) : OpcodeListed.Statement (.dec a) := ⟨_, rfl, rfl⟩
theorem OpcodeListed.not (a : Byte) : OpcodeListed.Statement (.not a) := ⟨_, rfl, rfl⟩
theorem OpcodeListed.ldi (a imm : Byte) : OpcodeListed.Statement (.ldi a imm) := ⟨_, rfl, rfl⟩
theorem OpcodeListed.ld (a b : Byte) : OpcodeListed.Statement (.ld a b) := ⟨_, rfl, rfl⟩
theorem OpcodeListed.st (a b : Byte) : OpcodeListed.Statement (.st a b) := ⟨_, rfl, rfl⟩
theorem OpcodeListed.add (a b : Byte) : OpcodeListed.Statement (.add a b) := ⟨_, rfl, rfl⟩
theorem OpcodeListed.sub (a b : Byte) : OpcodeListed.Statement (.sub a b) := ⟨_, rfl, rfl⟩
theorem OpcodeListed.mul (a b : Byte) : OpcodeListed.Statement (.mul a b) := ⟨_, rfl, rfl⟩
theorem OpcodeListed.div (a b : Byte) : OpcodeListed.Statement (.div a b) := ⟨_, rfl, rfl⟩
theorem OpcodeListed.mod (a b : Byte) : OpcodeListed.Statement (.mod a b) := ⟨_, rfl, rfl⟩
theorem OpcodeListed.cmp (a b : Byte) : OpcodeListed.Statement (.cmp a b) := ⟨_, rfl, rfl⟩
theorem OpcodeListed.and (a b : Byte) : OpcodeListed.Statement (.and a b) := ⟨_, rfl, rfl⟩
theorem OpcodeListed.or (a b : Byte) : OpcodeListed.Statement (.or a b) := ⟨_, rfl, rfl⟩
theorem OpcodeListed.xor (a b : Byte) : OpcodeListed.Statement (.xor a b) := ⟨_, rfl, rfl⟩
theorem OpcodeListed.shl (a b : Byte) : OpcodeListed.Statement (.shl a b) := ⟨_, rfl, rfl⟩
theorem OpcodeListed.shr (a b : Byte) : OpcodeListed.Statement (.shr a b) := ⟨_, rfl, rfl⟩

end Sys2Proof.Laws
end

