-- ==== Sys2Proof/Tests/Slice0.lean ====
section
/-! SUPPORT. The model's own tests: ill-formed terms, the spec's encodings written out bit by bit (30_encoding.md R71), one
or two of the spec's vectors per instruction (95_test_vectors.md V2, named in each comment), and for every statement with
hypotheses a state and operands that meet them. -/

namespace Sys2Proof.Tests

open Sys2Proof.Machine

/-! ### Helpers -/

/-- The state after reset with R0 to R3 set. -/
def regs4 (a b c d : Byte) : State :=
  { State.reset with x := { State.reset.x with r0 := a, r1 := b, r2 := c, r3 := d } }

/-- A state with the bytes of an instruction at `a` and the pc there. -/
def at' (s : State) (a : Nat) (bytes : List Byte) : State := State.putBytes { s with pc := a } a bytes

/-- The state a step answers. -/
def stepped (s : State) : Option State :=
  match step s with
  | .next t => some t
  | .fault _ => none
  | .refused _ => none

/-- The state an instruction answers. -/
def after (i : Instr) (s : State) : Option State :=
  match exec i s with
  | .next t => some t
  | .fault _ => none
  | .refused _ => none

/-- A view of the state after one step from `s` with `bytes` at 0x10. -/
def seen {α : Type} (s : State) (bytes : List Byte) (view : State → α) : Option α :=
  (stepped (at' s 0x10 bytes)).map view

/-- The fault record of a state. -/
def recorded (s : State) : Option FaultRecord :=
  match s.run, s.why with
  | .halted, .fault r => some r
  | _, _ => none

/-! ### Well-formedness: a term each check refuses, and the largest index it takes -/

theorem test_wf_refuses_operand_a :
    Instr.wellFormed (.push 8#8) = false
    ∧ Instr.wellFormed (.pop 8#8) = false
    ∧ Instr.wellFormed (.prn 8#8) = false
    ∧ Instr.wellFormed (.pra 8#8) = false
    ∧ Instr.wellFormed (.call 8#8) = false
    ∧ Instr.wellFormed (.int 8#8) = false
    ∧ Instr.wellFormed (.jmp 8#8) = false
    ∧ Instr.wellFormed (.jeq 8#8) = false
    ∧ Instr.wellFormed (.jne 8#8) = false
    ∧ Instr.wellFormed (.jgt 8#8) = false
    ∧ Instr.wellFormed (.jlt 8#8) = false
    ∧ Instr.wellFormed (.jle 8#8) = false
    ∧ Instr.wellFormed (.jge 8#8) = false
    ∧ Instr.wellFormed (.inc 8#8) = false
    ∧ Instr.wellFormed (.dec 8#8) = false
    ∧ Instr.wellFormed (.not 8#8) = false
    ∧ Instr.wellFormed (.ldi 8#8 0#8) = false := by decide

theorem test_wf_refuses_operand_a_of_two :
    Instr.wellFormed (.ld 255#8 0#8) = false
    ∧ Instr.wellFormed (.st 255#8 0#8) = false
    ∧ Instr.wellFormed (.add 255#8 0#8) = false
    ∧ Instr.wellFormed (.sub 255#8 0#8) = false
    ∧ Instr.wellFormed (.mul 255#8 0#8) = false
    ∧ Instr.wellFormed (.div 255#8 0#8) = false
    ∧ Instr.wellFormed (.mod 255#8 0#8) = false
    ∧ Instr.wellFormed (.cmp 255#8 0#8) = false
    ∧ Instr.wellFormed (.and 255#8 0#8) = false
    ∧ Instr.wellFormed (.or 255#8 0#8) = false
    ∧ Instr.wellFormed (.xor 255#8 0#8) = false
    ∧ Instr.wellFormed (.shl 255#8 0#8) = false
    ∧ Instr.wellFormed (.shr 255#8 0#8) = false := by decide

theorem test_wf_refuses_operand_b :
    Instr.wellFormed (.ld 7#8 8#8) = false
    ∧ Instr.wellFormed (.st 7#8 8#8) = false
    ∧ Instr.wellFormed (.add 7#8 8#8) = false
    ∧ Instr.wellFormed (.sub 7#8 8#8) = false
    ∧ Instr.wellFormed (.mul 7#8 8#8) = false
    ∧ Instr.wellFormed (.div 7#8 8#8) = false
    ∧ Instr.wellFormed (.mod 7#8 8#8) = false
    ∧ Instr.wellFormed (.cmp 7#8 8#8) = false
    ∧ Instr.wellFormed (.and 7#8 8#8) = false
    ∧ Instr.wellFormed (.or 7#8 8#8) = false
    ∧ Instr.wellFormed (.xor 7#8 8#8) = false
    ∧ Instr.wellFormed (.shl 7#8 8#8) = false
    ∧ Instr.wellFormed (.shr 7#8 8#8) = false := by decide

theorem test_wf_takes_index_7_and_any_literal :
    Instr.wellFormed (.add 7#8 7#8) = true ∧ Instr.wellFormed (.jmp 7#8) = true ∧ Instr.wellFormed (.ldi 7#8 255#8) = true
    ∧ Instr.wellFormed .iret = true := by decide

/-! ### Decoding: every constructor from its byte pattern in R71, with operands 0..7 in the operand bytes -/

theorem test_decode_no_operand :
    decode [0b00000000#8] = .ok (.nop, [])
    ∧ decode [0b00000001#8] = .ok (.hlt, [])
    ∧ decode [0b00010001#8] = .ok (.ret, [])
    ∧ decode [0b00010011#8] = .ok (.iret, []) := by decide

theorem test_decode_stack_output :
    decode [0b01000101#8, 1#8] = .ok (.push 1#8, [])
    ∧ decode [0b01000110#8, 2#8] = .ok (.pop 2#8, [])
    ∧ decode [0b01000111#8, 3#8] = .ok (.prn 3#8, [])
    ∧ decode [0b01001000#8, 4#8] = .ok (.pra 4#8, []) := by decide

theorem test_decode_control :
    decode [0b01010000#8, 1#8] = .ok (.call 1#8, [])
    ∧ decode [0b01010010#8, 2#8] = .ok (.int 2#8, [])
    ∧ decode [0b01010100#8, 3#8] = .ok (.jmp 3#8, [])
    ∧ decode [0b01010101#8, 4#8] = .ok (.jeq 4#8, [])
    ∧ decode [0b01010110#8, 5#8] = .ok (.jne 5#8, [])
    ∧ decode [0b01010111#8, 6#8] = .ok (.jgt 6#8, [])
    ∧ decode [0b01011000#8, 7#8] = .ok (.jlt 7#8, [])
    ∧ decode [0b01011001#8, 0#8] = .ok (.jle 0#8, [])
    ∧ decode [0b01011010#8, 1#8] = .ok (.jge 1#8, []) := by decide

theorem test_decode_unary_alu :
    decode [0b01100101#8, 1#8] = .ok (.inc 1#8, [])
    ∧ decode [0b01100110#8, 2#8] = .ok (.dec 2#8, [])
    ∧ decode [0b01101001#8, 3#8] = .ok (.not 3#8, []) := by decide

theorem test_decode_data :
    decode [0b10000010#8, 3#8, 0xC8#8, 9#8] = .ok (.ldi 3#8 200#8, [9#8])
    ∧ decode [0b10000011#8, 2#8, 7#8] = .ok (.ld 2#8 7#8, [])
    ∧ decode [0b10000100#8, 3#8, 2#8] = .ok (.st 3#8 2#8, []) := by decide

theorem test_decode_arithmetic_alu :
    decode [0b10100000#8, 1#8, 4#8] = .ok (.add 1#8 4#8, [])
    ∧ decode [0b10100001#8, 2#8, 7#8] = .ok (.sub 2#8 7#8, [])
    ∧ decode [0b10100010#8, 3#8, 2#8] = .ok (.mul 3#8 2#8, [])
    ∧ decode [0b10100011#8, 4#8, 5#8] = .ok (.div 4#8 5#8, [])
    ∧ decode [0b10100100#8, 5#8, 0#8] = .ok (.mod 5#8 0#8, [])
    ∧ decode [0b10100111#8, 6#8, 3#8] = .ok (.cmp 6#8 3#8, []) := by decide

theorem test_decode_bitwise_alu :
    decode [0b10101000#8, 1#8, 4#8] = .ok (.and 1#8 4#8, [])
    ∧ decode [0b10101010#8, 2#8, 7#8] = .ok (.or 2#8 7#8, [])
    ∧ decode [0b10101011#8, 3#8, 2#8] = .ok (.xor 3#8 2#8, [])
    ∧ decode [0b10101100#8, 4#8, 5#8] = .ok (.shl 4#8 5#8, [])
    ∧ decode [0b10101101#8, 5#8, 0#8] = .ok (.shr 5#8 0#8, []) := by decide

theorem test_decode_refuses :
    decode [] = .error .noOpcode
    ∧ decode [0xFF#8] = .error (.unknownOpcode 0xFF#8)
    ∧ decode [0x53#8, 0#8] = .error (.unknownOpcode 0x53#8)
    ∧ decode [0x45#8] = .error (.noOperand 0x45#8 1)
    ∧ decode [0xA0#8, 0#8] = .error (.noOperand 0xA0#8 2) := by decide

/-- R80: the bytes the rule names, and one with bits 7:6 = 11, spell no instruction. -/
theorem test_decode_unlisted :
    [0x02#8, 0x12#8, 0x53#8, 0xA5#8, 0xA6#8, 0xA9#8, 0xAE#8, 0xAF#8, 0xC0#8].all (fun op => (lookupOpcode op).isNone)
      = true := by decide

/-- A table word is laid out with its lowest byte first: LDI R3, 200 is `82 03 C8`. -/
theorem test_table_word : decodeTableWord 24 0xC80382 = some (.ldi 3#8 200#8) ∧ decodeTableWord 8 0xC80382 = some (.ldi 0#8 0#8) := by
  decide

/-- The word placed at reset is what the next step runs: `PRN R0` appends an event. -/
theorem test_fetch_word :
    (stepped (State.reset.withFetchWord 16 0x0047)).map (fun t => (t.out, t.pc)) = some ([⟨.prn, 0#8⟩], 2) := by decide

/-! ### Vectors of 95_test_vectors.md V2 -/

/-- A1 -/
theorem test_add_wraps : seen (regs4 255#8 1#8 0#8 0#8) [0xA0#8, 0x00#8, 0x01#8] (fun t => (t.x.r0, t.pc)) = some (0#8, 0x13) := by decide

/-- A3 -/
theorem test_add_same_register : seen (regs4 128#8 0#8 0#8 0#8) [0xA0#8, 0x00#8, 0x00#8] (fun t => (t.x.r0, t.pc)) = some (0#8, 0x13) := by decide

/-- A4 -/
theorem test_sub_wraps : seen (regs4 0#8 0#8 5#8 7#8) [0xA1#8, 0x02#8, 0x03#8] (fun t => (t.x.r2, t.x.r3, t.pc)) = some (254#8, 7#8, 0x13) := by decide

/-- A5 -/
theorem test_sub_borrow : seen (regs4 0#8 1#8 0#8 0#8) [0xA1#8, 0x00#8, 0x01#8] (fun t => (t.x.r0, t.pc)) = some (255#8, 0x13) := by decide

/-- A7 -/
theorem test_mul_low_byte : seen (regs4 255#8 255#8 0#8 0#8) [0xA2#8, 0x00#8, 0x01#8] (fun t => (t.x.r0, t.pc)) = some (1#8, 0x13) := by decide

/-- A8 -/
theorem test_mul_zero_low_byte : seen (regs4 16#8 16#8 0#8 0#8) [0xA2#8, 0x00#8, 0x01#8] (fun t => (t.x.r0, t.pc)) = some (0#8, 0x13) := by decide

/-- A10 -/
theorem test_div_quotient : seen (regs4 200#8 7#8 0#8 0#8) [0xA3#8, 0x00#8, 0x01#8] (fun t => (t.x.r0, t.pc)) = some (28#8, 0x13) := by decide

/-- A14 -/
theorem test_div_by_zero : seen (regs4 10#8 0#8 0#8 0#8) [0xA3#8, 0x00#8, 0x01#8] (fun t => (t.x.r0, t.pc, t.run, recorded t)) = some (10#8, 0x13, .halted, some ⟨.arithmeticError, some 0xA3#8, 0x10, .divisor .r1⟩) := by decide

/-- A16 -/
theorem test_mod_remainder : seen (regs4 200#8 7#8 0#8 0#8) [0xA4#8, 0x00#8, 0x01#8] (fun t => (t.x.r0, t.pc)) = some (4#8, 0x13) := by decide

/-- A19 -/
theorem test_mod_by_zero : seen (regs4 10#8 0#8 0#8 0#8) [0xA4#8, 0x00#8, 0x01#8] (fun t => (t.x.r0, t.pc, t.run, recorded t)) = some (10#8, 0x13, .halted, some ⟨.arithmeticError, some 0xA4#8, 0x10, .divisor .r1⟩) := by decide

/-- A20 -/
theorem test_and : seen (regs4 204#8 170#8 0#8 0#8) [0xA8#8, 0x00#8, 0x01#8] (fun t => (t.x.r0, t.pc)) = some (136#8, 0x13) := by decide

/-- A21 -/
theorem test_or : seen (regs4 204#8 170#8 0#8 0#8) [0xAA#8, 0x00#8, 0x01#8] (fun t => (t.x.r0, t.pc)) = some (238#8, 0x13) := by decide

/-- A22 -/
theorem test_xor : seen (regs4 204#8 170#8 0#8 0#8) [0xAB#8, 0x00#8, 0x01#8] (fun t => (t.x.r0, t.pc)) = some (102#8, 0x13) := by decide

/-- A23 -/
theorem test_xor_same_register : seen (regs4 204#8 0#8 0#8 0#8) [0xAB#8, 0x00#8, 0x00#8] (fun t => (t.x.r0, t.pc)) = some (0#8, 0x13) := by decide

/-- A24 -/
theorem test_shl : seen (regs4 5#8 2#8 0#8 0#8) [0xAC#8, 0x00#8, 0x01#8] (fun t => (t.x.r0, t.pc)) = some (20#8, 0x13) := by decide

/-- A27 -/
theorem test_shl_by_8 : seen (regs4 1#8 8#8 0#8 0#8) [0xAC#8, 0x00#8, 0x01#8] (fun t => (t.x.r0, t.pc)) = some (0#8, 0x13) := by decide

/-- A31 -/
theorem test_shr_logical : seen (regs4 128#8 7#8 0#8 0#8) [0xAD#8, 0x00#8, 0x01#8] (fun t => (t.x.r0, t.pc)) = some (1#8, 0x13) := by decide

/-- A32 -/
theorem test_shr_by_8 : seen (regs4 255#8 8#8 0#8 0#8) [0xAD#8, 0x00#8, 0x01#8] (fun t => (t.x.r0, t.pc)) = some (0#8, 0x13) := by decide

/-- A35 with R0 -/
theorem test_inc_wraps : seen (regs4 255#8 0#8 0#8 0#8) [0x65#8, 0x00#8] (fun t => (t.x.r0, t.pc)) = some (0#8, 0x12) := by decide

/-- A36 with R0 -/
theorem test_dec_wraps : seen (regs4 0#8 0#8 0#8 0#8) [0x66#8, 0x00#8] (fun t => (t.x.r0, t.pc)) = some (255#8, 0x12) := by decide

/-- A37 -/
theorem test_not : seen (regs4 15#8 0#8 0#8 0#8) [0x69#8, 0x00#8] (fun t => (t.x.r0, t.pc)) = some (240#8, 0x12) := by decide

/-- A42 -/
theorem test_cmp_unsigned : seen (regs4 255#8 1#8 0#8 0#8) [0xA7#8, 0x00#8, 0x01#8] (fun t => (t.fl, t.pc)) = some (⟨false, true, false⟩, 0x13) := by decide

/-- A43 -/
theorem test_cmp_clears : seen (((regs4 7#8 0#8 0#8 0#8)).setFlags ⟨false, true, false⟩) [0xA7#8, 0x00#8, 0x00#8] (fun t => (t.fl, t.pc)) = some (⟨true, false, false⟩, 0x13) := by decide

/-- C1 -/
theorem test_jmp : seen (regs4 0#8 64#8 0#8 0#8) [0x54#8, 0x01#8] (fun t => t.pc) = some (0x40) := by decide

/-- The JEQ column of the table of V2.2: reset, E, G, L. -/
theorem test_jeq :
    seen (((regs4 0#8 0#8 32#8 0#8)).setFlags ⟨false, false, false⟩) [0x55#8, 0x02#8] (fun t => t.pc) = some 0x12
    ∧ seen (((regs4 0#8 0#8 32#8 0#8)).setFlags ⟨true, false, false⟩) [0x55#8, 0x02#8] (fun t => t.pc) = some 0x20
    ∧ seen (((regs4 0#8 0#8 32#8 0#8)).setFlags ⟨false, true, false⟩) [0x55#8, 0x02#8] (fun t => t.pc) = some 0x12
    ∧ seen (((regs4 0#8 0#8 32#8 0#8)).setFlags ⟨false, false, true⟩) [0x55#8, 0x02#8] (fun t => t.pc) = some 0x12 := by decide

/-- The JNE column of the table of V2.2: reset, E, G, L. -/
theorem test_jne :
    seen (((regs4 0#8 0#8 32#8 0#8)).setFlags ⟨false, false, false⟩) [0x56#8, 0x02#8] (fun t => t.pc) = some 0x20
    ∧ seen (((regs4 0#8 0#8 32#8 0#8)).setFlags ⟨true, false, false⟩) [0x56#8, 0x02#8] (fun t => t.pc) = some 0x12
    ∧ seen (((regs4 0#8 0#8 32#8 0#8)).setFlags ⟨false, true, false⟩) [0x56#8, 0x02#8] (fun t => t.pc) = some 0x20
    ∧ seen (((regs4 0#8 0#8 32#8 0#8)).setFlags ⟨false, false, true⟩) [0x56#8, 0x02#8] (fun t => t.pc) = some 0x20 := by decide

/-- The JGT column of the table of V2.2: reset, E, G, L. -/
theorem test_jgt :
    seen (((regs4 0#8 0#8 32#8 0#8)).setFlags ⟨false, false, false⟩) [0x57#8, 0x02#8] (fun t => t.pc) = some 0x12
    ∧ seen (((regs4 0#8 0#8 32#8 0#8)).setFlags ⟨true, false, false⟩) [0x57#8, 0x02#8] (fun t => t.pc) = some 0x12
    ∧ seen (((regs4 0#8 0#8 32#8 0#8)).setFlags ⟨false, true, false⟩) [0x57#8, 0x02#8] (fun t => t.pc) = some 0x20
    ∧ seen (((regs4 0#8 0#8 32#8 0#8)).setFlags ⟨false, false, true⟩) [0x57#8, 0x02#8] (fun t => t.pc) = some 0x12 := by decide

/-- The JLT column of the table of V2.2: reset, E, G, L. -/
theorem test_jlt :
    seen (((regs4 0#8 0#8 32#8 0#8)).setFlags ⟨false, false, false⟩) [0x58#8, 0x02#8] (fun t => t.pc) = some 0x12
    ∧ seen (((regs4 0#8 0#8 32#8 0#8)).setFlags ⟨true, false, false⟩) [0x58#8, 0x02#8] (fun t => t.pc) = some 0x12
    ∧ seen (((regs4 0#8 0#8 32#8 0#8)).setFlags ⟨false, true, false⟩) [0x58#8, 0x02#8] (fun t => t.pc) = some 0x12
    ∧ seen (((regs4 0#8 0#8 32#8 0#8)).setFlags ⟨false, false, true⟩) [0x58#8, 0x02#8] (fun t => t.pc) = some 0x20 := by decide

/-- The JLE column of the table of V2.2: reset, E, G, L. -/
theorem test_jle :
    seen (((regs4 0#8 0#8 32#8 0#8)).setFlags ⟨false, false, false⟩) [0x59#8, 0x02#8] (fun t => t.pc) = some 0x12
    ∧ seen (((regs4 0#8 0#8 32#8 0#8)).setFlags ⟨true, false, false⟩) [0x59#8, 0x02#8] (fun t => t.pc) = some 0x20
    ∧ seen (((regs4 0#8 0#8 32#8 0#8)).setFlags ⟨false, true, false⟩) [0x59#8, 0x02#8] (fun t => t.pc) = some 0x12
    ∧ seen (((regs4 0#8 0#8 32#8 0#8)).setFlags ⟨false, false, true⟩) [0x59#8, 0x02#8] (fun t => t.pc) = some 0x20 := by decide

/-- The JGE column of the table of V2.2: reset, E, G, L. -/
theorem test_jge :
    seen (((regs4 0#8 0#8 32#8 0#8)).setFlags ⟨false, false, false⟩) [0x5A#8, 0x02#8] (fun t => t.pc) = some 0x12
    ∧ seen (((regs4 0#8 0#8 32#8 0#8)).setFlags ⟨true, false, false⟩) [0x5A#8, 0x02#8] (fun t => t.pc) = some 0x20
    ∧ seen (((regs4 0#8 0#8 32#8 0#8)).setFlags ⟨false, true, false⟩) [0x5A#8, 0x02#8] (fun t => t.pc) = some 0x20
    ∧ seen (((regs4 0#8 0#8 32#8 0#8)).setFlags ⟨false, false, true⟩) [0x5A#8, 0x02#8] (fun t => t.pc) = some 0x12 := by decide

/-- C7 -/
theorem test_call : seen (((regs4 0#8 48#8 0#8 0#8)).setReg .r7 0#8) [0x50#8, 0x01#8] (fun t => (t.mem.byteAt 0xFF, t.x.r7, t.pc)) = some (0x12#8, 0xFF#8, 0x30) := by decide

/-- C5: the return address 256 is stored as 0, so memory lists the two bytes of the CALL only -/
theorem test_call_at_254 : (stepped (at' (((regs4 0#8 48#8 0#8 0#8))) 0xFE [0x50#8, 0x01#8])).map (fun t => (t.mem, t.x.r7, t.pc)) = some ([(0xFE, 0x50#8), (0xFF, 0x01#8)], 0xF3#8, 0x30) := by decide

/-- C6 -/
theorem test_call_r7 : seen State.reset [0x50#8, 0x07#8] (fun t => (t.mem.byteAt 0xF3, t.x.r7, t.pc)) = some (0x12#8, 0xF3#8, 0xF3) := by decide

/-- C9 -/
theorem test_ret : seen (((((regs4 0#8 0#8 0#8 0#8)).setReg .r7 0xFF#8)).setMem 0xFF#8 0x20#8) [0x11#8] (fun t => (t.pc, t.x.r7)) = some (0x20, 0#8) := by decide

/-- S2 -/
theorem test_push : seen (((regs4 42#8 0#8 0#8 0#8)).setReg .r7 0#8) [0x45#8, 0x00#8] (fun t => (t.x.r7, t.mem.byteAt 0xFF, t.pc)) = some (0xFF#8, 0x2A#8, 0x12) := by decide

/-- S3 -/
theorem test_push_r7 : seen State.reset [0x45#8, 0x07#8] (fun t => (t.x.r7, t.mem.byteAt 0xF3)) = some (0xF3#8, 0xF3#8) := by decide

/-- S5 -/
theorem test_pop : seen (((((regs4 0#8 0#8 0#8 0#8)).setReg .r7 0xFF#8)).setMem 0xFF#8 0x11#8) [0x46#8, 0x01#8] (fun t => (t.x.r1, t.x.r7, t.pc)) = some (0x11#8, 0#8, 0x12) := by decide

/-- S6 -/
theorem test_pop_r7 : seen (((((regs4 0#8 0#8 0#8 0#8)).setReg .r7 0xF3#8)).setMem 0xF3#8 0x50#8) [0x46#8, 0x07#8] (fun t => t.x.r7) = some (0x51#8) := by decide

/-- S10 -/
theorem test_int_bit_7 : seen (regs4 7#8 0#8 0#8 0#8) [0x52#8, 0x00#8] (fun t => (t.x.r6, t.pc)) = some (0x80#8, 0x12) := by decide

/-- S11 -/
theorem test_int_no_capacity : seen (((regs4 8#8 0#8 0#8 0#8)).setReg .r6 5#8) [0x52#8, 0x00#8] (fun t => (t.x.r6, t.pc, t.run)) = some (5#8, 0x12, .running) := by decide

/-- S13 -/
theorem test_iret : seen ((State.reset.setReg .r7 0xEC#8).putBytes 0xEC [6#8, 5#8, 4#8, 3#8, 2#8, 1#8, 0#8, 0x40#8, 0x50#8]) [0x13#8] (fun t => (t.x, t.pc)) = some (⟨0#8, 1#8, 2#8, 3#8, 4#8, 5#8, 6#8, 0xF4#8⟩, 0x40) := by decide

/-- S14 -/
theorem test_iret_with_flags : (fun t : State => (t.x.r7, t.fl, t.pc)) (((State.reset.setReg .r7 0xEC#8).putBytes 0xEC [6#8, 5#8, 4#8, 3#8, 2#8, 1#8, 0#8, 0x40#8, 0x50#8]).returnFromInterrupt true)
    = (0xF5#8, ⟨false, false, false⟩, 0x50) := by decide

/-- M2 -/
theorem test_ldi_literal : seen State.reset [0x82#8, 0x03#8, 0xC8#8] (fun t => (t.x.r3, t.pc)) = some (200#8, 0x13) := by decide

/-- M5 -/
theorem test_ld_same_register : seen (((regs4 0#8 80#8 0#8 0#8)).setMem 0x50#8 0x99#8) [0x83#8, 0x01#8, 0x01#8] (fun t => (t.x.r1, t.pc)) = some (0x99#8, 0x13) := by decide

/-- M4 -/
theorem test_ld : seen (((regs4 0#8 80#8 0#8 0#8)).setMem 0x50#8 0x99#8) [0x83#8, 0x00#8, 0x01#8] (fun t => (t.x.r0, t.x.r1)) = some (0x99#8, 0x50#8) := by decide

/-- M6 -/
theorem test_st : seen (regs4 64#8 119#8 0#8 0#8) [0x84#8, 0x00#8, 0x01#8] (fun t => (t.mem.byteAt 0x40, t.pc)) = some (0x77#8, 0x13) := by decide

/-- M7 -/
theorem test_st_same_register : seen (regs4 64#8 0#8 0#8 0#8) [0x84#8, 0x00#8, 0x00#8] (fun t => t.mem.byteAt 0x40) = some (0x40#8) := by decide

/-- M9 -/
theorem test_prn : seen (regs4 255#8 0#8 0#8 0#8) [0x47#8, 0x00#8] (fun t => (t.out, t.pc)) = some ([⟨.prn, 255#8⟩], 0x12) := by decide

/-- M10 -/
theorem test_pra : seen (regs4 0#8 0#8 65#8 0#8) [0x48#8, 0x02#8] (fun t => (t.out, t.pc)) = some ([⟨.pra, 65#8⟩], 0x12) := by decide

/-- M11 at 0x10 -/
theorem test_nop : stepped { State.reset with pc := 0x10 } = some ({ State.reset with pc := 0x11 }) := by decide

/-- M12 at 0x10 -/
theorem test_hlt : seen State.reset [0x01#8] (fun t => (t.run, t.why, t.pc)) = some (.halted, .hlt, 0x10) := by decide

/-- F1 -/
theorem test_unknown_opcode : seen State.reset [0xFF#8] (fun t => (recorded t, t.pc)) = some (some ⟨.unknownOpcode, some 0xFF#8, 0x10, .none⟩, 0x10) := by decide

/-- F8 -/
theorem test_bad_index : seen (regs4 5#8 0#8 0#8 0#8) [0xA3#8, 0x09#8, 0x0A#8] (fun t => (recorded t, t.pc)) = some (some ⟨.addressingFault, some 0xA3#8, 0x10, .registerIndex 9#8⟩, 0x10) := by decide

/-- F9 with the operands swapped: the bad divisor index, not the divisor, is reported -/
theorem test_bad_index_before_divisor : seen State.reset [0xA3#8, 0x01#8, 0x09#8] (fun t => (recorded t, t.pc)) = some (some ⟨.addressingFault, some 0xA3#8, 0x10, .registerIndex 9#8⟩, 0x10) := by decide

/-- F4 -/
theorem test_fetch_at_256 : (stepped { State.reset with pc := 256 }).map (fun t => (recorded t, t.pc)) = some (some ⟨.addressingFault, none, 256, .address 256⟩, 256) := by decide

/-- F5 -/
theorem test_literal_at_256 : (stepped (at' State.reset 0xFE [0x82#8, 0x00#8])).map (fun t => (recorded t, t.pc)) = some (some ⟨.addressingFault, some 0x82#8, 0xFE, .address 256⟩, 0xFE) := by decide

/-- F6 -/
theorem test_operand_at_256 : (stepped (at' State.reset 0xFF [0x47#8])).map (fun t => (recorded t, t.out)) = some (some ⟨.addressingFault, some 0x47#8, 0xFF, .address 256⟩, []) := by decide

/-- F7 -/
theorem test_unknown_before_operand : (stepped (at' State.reset 0xFF [0xFF#8])).map recorded = some (some ⟨.unknownOpcode, some 0xFF#8, 0xFF, .none⟩) := by decide

/-- M13 -/
theorem test_halted_has_no_step : stepped { State.reset with run := .halted, why := .hlt } = none := by decide

/-- V1.2f and R272: a program lies from address 0; 257 bytes are not loaded. -/
theorem test_load :
    (hostLoadProgram State.reset [0x82#8, 0x00#8, 0x08#8]).map (fun t => (t.mem, t.pc)) = some ([(0, 0x82#8), (2, 0x08#8)], 0)
    ∧ hostLoadProgram State.reset (List.replicate 257 0#8) = none := by
  exact ⟨by decide, if_neg (by rw [List.length_replicate]; decide)⟩

/-! ### Witnesses: states and operands that meet the hypotheses of the statements -/

/-- A CORE about to run `DIV R0, R1` at 0x10 with R1 = 0: the hypotheses of `ArithmeticErrorCauses`, `HaltingStepIsPrecise`
(its exception) and `DivModResult`'s divisor 0. -/
theorem witness_arithmetic_error :
    (regs4 10#8 0#8 0#8 0#8).run = .running ∧ (regs4 10#8 0#8 0#8 0#8).x.get .r1 = 0#8
    ∧ ∃ t r, exec (.div 0#8 1#8) (regs4 10#8 0#8 0#8 0#8) = .next t ∧ t.run = .halted ∧ t.why = .fault r
      ∧ r.kind = .arithmeticError :=
  ⟨rfl, rfl, _, _, rfl, rfl, rfl, rfl⟩

theorem witness_mod_arithmetic_error :
    ∃ t r, exec (.mod 7#8 7#8) ((regs4 0#8 0#8 0#8 0#8).setReg .r7 0#8) = .next t ∧ t.run = .halted ∧ t.why = .fault r
      ∧ r.kind = .arithmeticError :=
  ⟨_, _, rfl, rfl, rfl, rfl⟩

/-- `HaltingStepIsPrecise` by HLT, and `NopHltResult`'s end. -/
theorem witness_halting_step :
    ∃ t, step (at' State.reset 0x10 [0x01#8]) = .next t ∧ (at' State.reset 0x10 [0x01#8]).run = .running
      ∧ t.run = .halted ∧ t.why = .hlt :=
  ⟨_, rfl, rfl, rfl, rfl⟩

/-- `HaltingStepIsPrecise` by an exception of a step, the divisor 0. -/
theorem witness_halting_step_exception :
    ∃ t r, step (at' (regs4 10#8 0#8 0#8 0#8) 0x10 [0xA3#8, 0#8, 1#8]) = .next t ∧ t.run = .halted ∧ t.why = .fault r :=
  ⟨_, _, rfl, rfl, rfl⟩

/-- The divisor 1 is the smallest that divides: `DivModResult`, `DivModReconstructsDividend`. -/
theorem witness_divisor_one : (regs4 255#8 1#8 0#8 0#8).x.get .r1 ≠ 0#8 := by decide

/-- `EncodeOfDecode` and `LengthFromOpcodeAlone`. -/
theorem witness_decode : decode [0x82#8, 7#8, 255#8, 1#8] = .ok (.ldi 7#8 255#8, [1#8]) := by decide

/-- `OpcodeFieldsAgreeWithTable`. -/
theorem witness_lookup : ∃ row, lookupOpcode 0xAD#8 = some row := ⟨_, rfl⟩

/-- `UnlistedOpcodeFaults`: the byte 0x02 between two opcodes, at the last address. -/
theorem witness_unlisted :
    (at' State.reset 0xFF [0x02#8]).run = .running ∧ (at' State.reset 0xFF [0x02#8]).mem.read? 0xFF = some 0x02#8
    ∧ lookupOpcode 0x02#8 = none := ⟨rfl, rfl, rfl⟩

/-- `UnlistedOpcodeFaults`, second part, and `AddressingFaultCauses`' last part: an instruction that halts with a record. -/
theorem witness_exec_fault :
    ∃ t r, exec (.jeq 8#8) State.reset = .next t ∧ State.reset.run = .running ∧ t.run = .halted ∧ t.why = .fault r :=
  ⟨_, _, rfl, rfl, rfl, rfl⟩

/-- `StepRunsInstructionAtPc`: CMP R6, R7 in the last three bytes of memory. -/
theorem witness_step_runs :
    (at' State.reset 253 [0xA7#8, 6#8, 7#8]).run = .running
    ∧ ∀ k, k < (encode (.cmp 6#8 7#8)).length →
      (at' State.reset 253 [0xA7#8, 6#8, 7#8]).mem.read? (253 + k) = (encode (.cmp 6#8 7#8))[k]? := by decide

/-- `StepFollowsCycle` and both parts of `StepExistsOnlyWhileRunning`. -/
theorem witness_run_states : State.reset.run = .running ∧ State.reset.halt.run = .halted := ⟨rfl, rfl⟩

/-- `BadRegisterOperandFaults` at the smallest bad index, in each place. -/
theorem witness_bad_operand :
    Instr.firstBadOperand (.jlt 8#8) = some 8#8 ∧ Instr.firstBadOperand (.st 7#8 8#8) = some 8#8
    ∧ Instr.firstBadOperand (.st 255#8 8#8) = some 255#8 ∧ Instr.firstBadOperand (.ldi 8#8 0#8) = some 8#8 := by decide

/-- `AddressingFaultCauses`: the pc at 256; the first operand missing at 255 and the second at 254; a bad index. -/
theorem witness_addressing_causes :
    ({ State.reset with pc := 256 } : State).pc ≤ 256
    ∧ (at' State.reset 255 [0x45#8]).mem.read? 255 = some 0x45#8 ∧ 255 + 1 = 256
    ∧ (at' State.reset 254 [0xA0#8, 0#8]).mem.read? 254 = some 0xA0#8 ∧ 254 + 2 = 256
    ∧ decode ((at' State.reset 0 [0x45#8, 8#8]).mem.bytesFrom 0 3) = .ok (.push 8#8, [0#8]) := by decide

/-- `AddressingFaultCauses`, last part: a step that halts with AddressingFault. -/
theorem witness_addressing_step :
    ∃ t r, step { State.reset with pc := 256 } = .next t ∧ t.run = .halted ∧ t.why = .fault r
      ∧ r.kind = .addressingFault := ⟨_, _, rfl, rfl, rfl, rfl⟩

/-- `OnlyHltAndExceptionsHalt`, for MOD of a register holding 1. -/
theorem witness_no_halt :
    Instr.wellFormed (.mod 0#8 1#8) = true ∧ (Instr.mod 0#8 1#8) ≠ .hlt
    ∧ (∀ (a : Byte) (rb : Reg), Instr.mod 0#8 1#8 = .div a rb.toByte ∨ Instr.mod 0#8 1#8 = .mod a rb.toByte →
      (regs4 9#8 1#8 0#8 0#8).x.get rb ≠ 0#8)
    ∧ ∃ t, exec (.mod 0#8 1#8) (regs4 9#8 1#8 0#8 0#8) = .next t := by
  refine ⟨rfl, by decide, ?_, _, rfl⟩
  intro a rb h
  cases rb <;> first | decide | (simp [Reg.toByte] at h)

/-- `ShiftResult`'s amounts at the boundary: 7 shifts a bit to the end, 8 shifts all out. -/
theorem witness_shift_boundary :
    8 ≤ ((regs4 1#8 8#8 0#8 0#8).x.get .r1).toNat
    ∧ (after (.shl 0#8 1#8) (regs4 1#8 7#8 0#8 0#8)).map (fun t => t.x.r0) = some 128#8 := by decide

/-- The frames: `AluFrame`, `JumpFrame`, `StackFrame`, `DataFrame`, with `FlagsReadOnlyByConditionalJumps`,
`OnlyCompareWritesFlags`, `OnlyStoresWriteMemory`, `OutputOnlyGrowsUnread` and `DefaultAdvanceIsSize`: an instruction of each
list answers a next state, RUNNING. -/
theorem witness_frames :
    (∃ t, exec (.xor 0#8 1#8) State.reset = .next t ∧ t.run = .running)
    ∧ (∃ t, exec (.jge 7#8) State.reset = .next t)
    ∧ (∃ t, exec (.pop 7#8) State.reset = .next t)
    ∧ (∃ t, exec (.push 0#8) State.reset = .next t)
    ∧ (∃ t, exec (.st 0#8 7#8) State.reset = .next t)
    ∧ (∃ t, exec (.pra 7#8) State.reset = .next t) :=
  ⟨⟨_, rfl, rfl⟩, ⟨_, rfl⟩, ⟨_, rfl⟩, ⟨_, rfl⟩, ⟨_, rfl⟩, ⟨_, rfl⟩⟩

/-- The frames' clauses at their edges: the byte beside the one a PUSH at SP = 0 writes, a register beside the operand's. -/
theorem witness_frame_edges :
    State.pushAddr (State.reset.setReg .r7 0#8) = 255#8 ∧ 254 ≠ (State.pushAddr (State.reset.setReg .r7 0#8)).toNat
    ∧ (0#8 : Byte) ≠ Reg.toByte .r1 := by decide

/-- `ConditionalJumpResults`' last part: a state a CMP answers. -/
theorem witness_after_compare : ∃ s, exec (.cmp 0#8 1#8) (regs4 3#8 9#8 0#8 0#8) = .next s := ⟨_, rfl⟩

/-- `ConditionalJumpResults`, the reset row: JNE alone is taken. -/
theorem witness_reset_flags :
    State.reset.fl.e = false ∧ ¬State.reset.fl.g = true ∧ ¬(State.reset.fl.l = true ∨ State.reset.fl.e = true) := by decide

/-- Memory in canonical form: the hypothesis of `CallResult`, `CallThenReturnResumes`, `PushResult`, `PushThenPopRestores`,
`IretUndoesBuiltFrame`, `StoreResult`, `StoreThenLoadReads` and `ProgramLoadsFromZero`, with a cell at each end listed. -/
theorem witness_canonical_memory : ((State.reset.setMem 0#8 1#8).setMem 255#8 2#8).mem.wf := by decide

/-- `CallThenReturnResumes`: the state CALL leaves meets the conditions on the state of the RET. -/
theorem witness_call_then_return :
    ∃ t, exec (.call 1#8) (regs4 0#8 0x30#8 0#8 0#8) = .next t ∧ t.x.get .r7 = 0xF3#8 := ⟨_, rfl, rfl⟩

/-- `InterruptRecordsInStatus` at the last number with capacity and the first without. -/
theorem witness_int_capacity :
    ((regs4 7#8 8#8 0#8 0#8).x.get .r0).toNat < 8 ∧ ¬((regs4 7#8 8#8 0#8 0#8).x.get .r1).toNat < 8 := by decide

/-- `MaskDecidesNothing`: an instruction that does not name R5, and IRET. -/
theorem witness_mask :
    (∀ b ∈ Instr.regOperands (.add 4#8 6#8), b ≠ Reg.r5.toByte) ∧ (∀ b ∈ Instr.regOperands .iret, b ≠ Reg.r5.toByte)
    ∧ ∃ t, exec (.add 4#8 6#8) State.reset = .next t := ⟨by decide, by decide, _, rfl⟩

/-- `OutputResult`'s second part: an instruction that is no output. -/
theorem witness_not_output : (∀ a, Instr.nop ≠ .prn a) ∧ (∀ a, Instr.nop ≠ .pra a) ∧ ∃ t, exec .nop State.reset = .next t :=
  ⟨nofun, nofun, _, rfl⟩

/-- `StoreSeenByNextFetch`: ST R0, R1 at 0x10 with R0 = 0x13 and R1 the opcode of HLT. -/
theorem witness_store_seen :
    (at' (regs4 0x13#8 0x01#8 0#8 0#8) 0x10 [0x84#8, 0#8, 1#8]).run = .running
    ∧ (at' (regs4 0x13#8 0x01#8 0#8 0#8) 0x10 [0x84#8, 0#8, 1#8]).pc + 3
      = ((at' (regs4 0x13#8 0x01#8 0#8 0#8) 0x10 [0x84#8, 0#8, 1#8]).x.get .r0).toNat
    ∧ encode .hlt = [(at' (regs4 0x13#8 0x01#8 0#8 0#8) 0x10 [0x84#8, 0#8, 1#8]).x.get .r1]
    ∧ (at' (regs4 0x13#8 0x01#8 0#8 0#8) 0x10 [0x84#8, 0#8, 1#8]).mem.wf := by decide

/-- `StepKeepsInvariant`: a CORE with its pc at the last address that meets the invariant, and steps to 256. -/
theorem witness_invariant :
    State.Inv { State.reset with pc := 255 } ∧ ∃ t, step { State.reset with pc := 255 } = .next t ∧ t.pc = 256 :=
  ⟨⟨State.reset_mem_wf, by decide, rfl⟩, _, rfl, rfl⟩

/-- `StepKeepsFlagsExclusive`, with a flag set and a step that sets another. -/
theorem witness_flags_exclusive :
    (State.reset.setFlags ⟨false, true, false⟩).fl.exclusive
    ∧ ∃ t, step (at' (State.reset.setFlags ⟨false, true, false⟩) 0 [0xA7#8, 0#8, 0#8]) = .next t :=
  ⟨by decide, _, rfl⟩

/-- `ProgramLoadsFromZero` and `ResetState`: the longest program and the shortest that is too long. -/
theorem witness_program_lengths :
    (∃ p : List Byte, p.length = 256) ∧ (∃ p : List Byte, 256 < p.length) ∧ ∃ s, hostLoadProgram State.reset [0x01#8] = some s := ⟨⟨List.replicate 256 0#8, List.length_replicate⟩, ⟨List.replicate 257 0#8, by rw [List.length_replicate]; decide⟩, _, rfl⟩

/-- `RunReturnsAtHalt`: a run of one step that ends with success, one that ends with a record, and one cut off. -/
theorem witness_run :
    hostRun 1 (at' State.reset 0 [0x01#8]) = some .success
    ∧ hostRun 1 (at' State.reset 0 [0xFF#8]) = some (.fault ⟨.unknownOpcode, some 0xFF#8, 0, .none⟩)
    ∧ hostRun 0 (at' State.reset 0 [0x01#8]) = none := by decide

/-! ### The parameters of R6 -/

/-- V2 S14: IRET with IRET_RESTORES_FL true takes FL from the byte at 0xF3 and the pc from the next, SP 9 higher. -/
theorem test_iret_restores_fl :
    (match stepWith (at' (State.reset.setReg .r7 0xEC#8 |>.setMem 0xF3#8 0x40#8 |>.setMem 0xF4#8 0x50#8
        |>.setFlags ⟨true, false, false⟩) 0x10 [0x13#8]) { iretRestoresFl := true } with
      | .next t => some (t.fl, t.pc, t.x.r7)
      | .fault _ => none
      | .refused _ => none) = some (⟨false, false, false⟩, 0x50, 0xF5#8) := by decide

/-- `DecodeUnderAnyOpcodeMap` and `StepUnderAnyParameters`: an injective renaming, and a state with a renamed HLT at the pc,
one with a byte that is no opcode of the map, and the parameters. -/
theorem witness_opcode_map :
    Function.Injective (fun b : Byte => ~~~b)
    ∧ (∀ k, k < Instr.size .hlt → (at' State.reset 0 [0xFE#8]).mem.read? ((at' State.reset 0 [0xFE#8]).pc + k)
        = ((~~~(Instr.opcode .hlt)) :: Instr.operandBytes .hlt)[k]?)
    ∧ (∀ i : Instr, (0x00#8 : Byte) ≠ ~~~i.opcode)
    ∧ ({ opcodeMap := renamedTable (fun b => ~~~b) } : Params).opcodeMap
        = renamedTable (fun b => ~~~b) := by
  refine ⟨?_, by decide, ?_, rfl⟩
  · intro a b h
    simpa using congrArg (fun v : Byte => ~~~v) h
  · intro i
    cases i <;> (simp only [Instr.opcode]; decide)

/-- `ParametersActOnlyWhereNamed`: a bad operand, a zero divisor, and an instruction that faults on no operand. -/
theorem witness_parameters :
    Instr.firstBadOperand (.add 7#8 8#8) = some 8#8 ∧ State.reset.x.get .r0 = 0#8
    ∧ Instr.wellFormed (.add 7#8 7#8) = true
    ∧ ∀ (a : Byte) (rb : Reg), Instr.add 7#8 7#8 = .div a rb.toByte ∨ Instr.add 7#8 7#8 = .mod a rb.toByte →
      State.reset.x.get rb ≠ 0#8 :=
  ⟨by decide, rfl, by decide, fun _ _ h => by rcases h with h | h <;> cases h⟩

end Sys2Proof.Tests
end

section
/-! The register-index check (10_state.md R26) over a list of operand bytes, in the form `Instr.firstBadOperand` has. -/

namespace Sys2Proof.Machine

variable (s : State)

theorem validIndex_eq_false {b : Byte} : validIndex b = false ↔ 8 ≤ b.toNat := by
  simp [validIndex]

/-- One register operand that is bad: the fault names it. -/
theorem State.withReg_firstBad (op : Byte) {a b : Byte} (h : [a].find? (fun c => !validIndex c) = some b)
    (f : Reg → State) :
    s.withReg op a f = s.takeException .addressingFault (some op) (.registerIndex b) := by
  obtain ⟨hbad, rfl⟩ : 8 ≤ a.toNat ∧ a = b := by simpa [validIndex_eq_false] using h
  exact s.withReg_bad op hbad f

/-- Two register operands, one of them bad: the fault names the first that is. -/
theorem State.withRegs_firstBad (op : Byte) {a b c : Byte} (h : [a, b].find? (fun d => !validIndex d) = some c)
    (f : Reg → Reg → State) :
    s.withRegs op a b f = s.takeException .addressingFault (some op) (.registerIndex c) := by
  rcases Nat.lt_or_ge a.toNat 8 with ha | ha
  · obtain ⟨r, rfl⟩ := Reg.exists_toByte ha
    have hb : [b].find? (fun d => !validIndex d) = some c := by
      simpa [List.find?_cons, validIndex, Reg.toByte_toNat_lt] using h
    simpa [State.withRegs] using s.withReg_firstBad op hb (f r)
  · have ha' : [a].find? (fun d => !validIndex d) = some c := by
      simpa [List.find?_cons, validIndex_eq_false.mpr ha] using h
    exact s.withReg_firstBad op ha' _

/-- Settles O10: every instruction checks its register operands with `withReg` or `withRegs` before any effect. -/
theorem badRegisterOperandFaults : Obligations.BadRegisterOperandFaults := by
  intro i s b h
  cases i with
  | nop | hlt | ret | iret => cases h
  | push a | pop a | prn a | pra a | call a | int a | jmp a | jeq a | jne a | jgt a | jlt a | jle a | jge a
  | inc a | dec a | not a | ldi a imm => exact congrArg Host.Outcome.next (s.withReg_firstBad _ h _)
  | ld a c | st a c | add a c | sub a c | mul a c | div a c | mod a c | cmp a c
  | and a c | or a c | xor a c | shl a c | shr a c => exact congrArg Host.Outcome.next (s.withRegs_firstBad _ h _)

end Sys2Proof.Machine
end

section
/-! Noninterference (10_state.md R23, R31, R35): a change of the state in a part that an instruction neither reads nor
writes is carried through it. -/

namespace Sys2Proof

/-- The registers an instruction may read or write: its operands, IS and SP, and all of them for IRET, which restores
them. -/
def Instr.touches (i : Instr) (r : Reg) : Prop := r.toByte ∈ i.regOperands ∨ r = .r6 ∨ r = .r7 ∨ i = .iret

theorem Instr.touches_operand {i : Instr} {r : Reg} (h : r.toByte ∈ i.regOperands) : i.touches r := Or.inl h

theorem Instr.touches_is (i : Instr) : i.touches .r6 := Or.inr (Or.inl rfl)

theorem Instr.touches_sp (i : Instr) : i.touches .r7 := Or.inr (Or.inr (Or.inl rfl))

theorem Instr.iret_touches (r : Reg) : Instr.iret.touches r := Or.inr (Or.inr (Or.inr rfl))

/-- IM is touched by IRET and by the instructions that name it alone. -/
theorem Instr.ne_mask_of_touches {i : Instr} {r : Reg} (hi : i ≠ .iret) (hops : ∀ b ∈ i.regOperands, b ≠ Reg.r5.toByte)
    (h : i.touches r) : r ≠ .r5 := by
  rintro rfl
  rcases h with h | h | h | h
  · exact hops _ h rfl
  · cases h
  · cases h
  · exact hi h

/-- The six conditional jumps, the only readers of FL (R31). -/
def Instr.jumpsOnFlags : Instr → Bool
  | .jeq _ | .jne _ | .jgt _ | .jlt _ | .jle _ | .jge _ => true
  | _ => false

namespace Machine

/-- `g` changes only a part of the state that `i` neither reads nor writes: what `i` reads is the same after `g`, and what
`i` writes can be written before `g` or after it. `exec_of_untouched` ties it to the model. -/
structure Untouched (i : Instr) (g : State → State) : Prop where
  mem : ∀ s, (g s).mem = s.mem
  pc : ∀ s, (g s).pc = s.pc
  get : ∀ s r, i.touches r → (g s).x.get r = s.x.get r
  setReg : ∀ s r v, i.touches r → (g s).setReg r v = g (s.setReg r v)
  setMem : ∀ s a v, (g s).setMem a v = g (s.setMem a v)
  advance : ∀ s n, (g s).advance n = g (s.advance n)
  jumpTo : ∀ s t, (g s).jumpTo t = g (s.jumpTo t)
  halt : ∀ s, (g s).halt = g s.halt
  takeException : ∀ s k op d, (g s).takeException k op d = g (s.takeException k op d)
  fl : i.jumpsOnFlags = true → ∀ s, (g s).fl = s.fl
  setFlags : (∃ a b, i = .cmp a b) → ∀ s f, (g s).setFlags f = g (s.setFlags f)
  emit : (∃ a, i = .prn a ∨ i = .pra a) → ∀ s k v, (g s).emit k v = g (s.emit k v)

namespace Untouched

variable {i j : Instr} {g : State → State} (h : Untouched i g) (s : State) {op a b : Byte}

include h

/-! ### Operand forms and ALU shapes

An operand's membership is found by `simp` where `i` is a constructor. -/

theorem withReg {f f' : Reg → State} (hf : ∀ r, i.touches r → f' r = g (f r))
    (ha : a ∈ i.regOperands := by simp [Instr.regOperands]) : (g s).withReg op a f' = g (s.withReg op a f) := by
  rcases Nat.lt_or_ge a.toNat 8 with hlt | hbad
  · obtain ⟨r, rfl⟩ := Reg.exists_toByte hlt
    simpa using hf r (Instr.touches_operand ha)
  · rw [State.withReg_bad _ op hbad, State.withReg_bad _ op hbad, h.takeException]

theorem withRegs {f f' : Reg → Reg → State} (hf : ∀ ra rb, i.touches ra → i.touches rb → f' ra rb = g (f ra rb))
    (ha : a ∈ i.regOperands := by simp [Instr.regOperands])
    (hb : b ∈ i.regOperands := by simp [Instr.regOperands]) :
    (g s).withRegs op a b f' = g (s.withRegs op a b f) :=
  h.withReg s (fun ra hra => h.withReg s (fun rb hrb => hf ra rb hra hrb) hb) ha

theorem setReg_advance {r : Reg} (hr : i.touches r) (v : Byte) (n : Nat) :
    ((g s).setReg r v).advance n = g ((s.setReg r v).advance n) := by
  rw [h.setReg _ _ _ hr, h.advance]

theorem aluBinary {f : Byte → Byte → Byte} (ha : a ∈ i.regOperands := by simp [Instr.regOperands])
    (hb : b ∈ i.regOperands := by simp [Instr.regOperands]) :
    (g s).aluBinary j a b f op = g (s.aluBinary j a b f op) :=
  h.withRegs s (fun ra rb hra hrb => by rw [h.get _ _ hra, h.get _ _ hrb, h.setReg_advance s hra]) ha hb

theorem aluDivide {f : Byte → Byte → Byte} (ha : a ∈ i.regOperands := by simp [Instr.regOperands])
    (hb : b ∈ i.regOperands := by simp [Instr.regOperands]) :
    (g s).aluDivide j a b f op = g (s.aluDivide j a b f op) :=
  h.withRegs s (fun ra rb hra hrb => by
    rw [h.get _ _ hra, h.get _ _ hrb, h.setReg_advance s hra, h.takeException, apply_ite g]) ha hb

theorem aluUnary {f : Byte → Byte} (ha : a ∈ i.regOperands := by simp [Instr.regOperands]) :
    (g s).aluUnary j a f op = g (s.aluUnary j a f op) :=
  h.withReg s (fun ra hra => by rw [h.get _ _ hra, h.setReg_advance s hra]) ha

/-! ### Jumps and output -/

theorem jumpIf {c : Flags → Bool} (hi : i.jumpsOnFlags = true)
    (ha : a ∈ i.regOperands := by simp [Instr.regOperands]) : (g s).jumpIf j a c op = g (s.jumpIf j a c op) :=
  h.withReg s (fun ra hra => by rw [h.fl hi, h.get _ _ hra, h.jumpTo, h.advance, apply_ite g]) ha

theorem output {k : OutKind} (hi : ∃ a, i = .prn a ∨ i = .pra a)
    (ha : a ∈ i.regOperands := by simp [Instr.regOperands]) : (g s).output j a k op = g (s.output j a k op) :=
  h.withReg s (fun ra hra => by rw [h.get _ _ hra, h.emit hi, h.advance]) ha

/-! ### Stack -/

theorem memAt (c : Byte) : (g s).memAt c = s.memAt c := by
  rw [State.memAt_eq, State.memAt_eq, h.mem]

theorem sp : (g s).sp = s.sp := h.get s .r7 i.touches_sp

theorem decSp : (g s).decSp = g s.decSp := by
  rw [State.decSp, h.sp, h.setReg _ _ _ i.touches_sp, State.decSp]

theorem incSp : (g s).incSp = g s.incSp := by
  rw [State.incSp, h.sp, h.setReg _ _ _ i.touches_sp, State.incSp]

theorem push {value : State → Byte} (hv : ∀ t, value (g t) = value t) : (g s).push value = g (s.push value) := by
  rw [State.push, h.decSp, h.sp, hv, h.setMem, State.push]

theorem popReg {r : Reg} (hr : i.touches r) : (g s).popReg r = g (s.popReg r) := by
  rw [State.popReg, h.sp, h.memAt, h.setReg _ _ _ hr, h.incSp, State.popReg]

theorem popPc : (g s).popPc = g s.popPc := by
  rw [State.popPc, h.sp, h.memAt, h.jumpTo, h.incSp, State.popPc]

/-! ### Calls and interrupt bookkeeping -/

theorem returnByte : (g s).returnByte = s.returnByte := by
  rw [State.returnByte, h.pc, State.returnByte]

theorem recordInterrupt (record : Byte → Byte → Byte) {r : Reg} (hr : i.touches r) :
    (g s).recordInterrupt record r = g (s.recordInterrupt record r) := by
  rw [State.recordInterrupt, h.get _ _ i.touches_is, h.get _ _ hr, h.setReg _ _ _ i.touches_is, State.recordInterrupt]

theorem foldl_popReg {rs : List Reg} (hrs : ∀ r ∈ rs, i.touches r) :
    rs.foldl State.popReg (g s) = g (rs.foldl State.popReg s) := by
  induction rs generalizing s with
  | nil => rfl
  | cons r rs ih =>
    obtain ⟨hr, hrest⟩ := List.forall_mem_cons.mp hrs
    rw [List.foldl_cons, List.foldl_cons, h.popReg s hr, ih _ hrest]

/-- A return from interrupt that does not restore FL, the default. -/
theorem returnFromInterrupt (hi : ∀ r, i.touches r) :
    (g s).returnFromInterrupt false = g (s.returnFromInterrupt false) := by
  simp only [State.returnFromInterrupt, h.foldl_popReg s (fun r _ => hi r), Bool.false_eq_true, if_false, h.popPc]

end Untouched

/-- What an instruction does not touch is carried through it. -/
theorem exec_of_untouched {i : Instr} {g : State → State} (h : Untouched i g) (s : State) :
    ∃ t, exec i s = .next t ∧ exec i (g s) = .next (g t) := by
  cases i with
  | nop => exact ⟨_, rfl, congrArg Host.Outcome.next (h.advance s _)⟩
  | hlt => exact ⟨_, rfl, congrArg Host.Outcome.next (h.halt s)⟩
  | ret => exact ⟨_, rfl, congrArg Host.Outcome.next (h.popPc s)⟩
  | iret => exact ⟨_, rfl, congrArg Host.Outcome.next (h.returnFromInterrupt s Instr.iret_touches)⟩
  | push a =>
    refine ⟨_, rfl, congrArg Host.Outcome.next (h.withReg s fun ra hra => ?_)⟩
    rw [h.push s fun t => h.get t ra hra, h.advance]
  | pop a =>
    refine ⟨_, rfl, congrArg Host.Outcome.next (h.withReg s fun ra hra => ?_)⟩
    rw [h.popReg s hra, h.advance]
  | prn a | pra a => exact ⟨_, rfl, congrArg Host.Outcome.next (h.output s ⟨a, by simp⟩)⟩
  | call a =>
    refine ⟨_, rfl, congrArg Host.Outcome.next (h.withReg s fun ra hra => ?_)⟩
    simp only [h.returnByte, h.push s (value := fun _ => s.returnByte) fun _ => rfl, h.get _ _ hra, h.jumpTo]
  | int a =>
    refine ⟨_, rfl, congrArg Host.Outcome.next (h.withReg s fun ra hra => ?_)⟩
    rw [h.recordInterrupt s _ hra, h.advance]
  | jmp a =>
    refine ⟨_, rfl, congrArg Host.Outcome.next (h.withReg s fun ra hra => ?_)⟩
    rw [h.get _ _ hra, h.jumpTo]
  | jeq a | jne a | jgt a | jlt a | jle a | jge a => exact ⟨_, rfl, congrArg Host.Outcome.next (h.jumpIf s rfl)⟩
  | inc a | dec a | not a => exact ⟨_, rfl, congrArg Host.Outcome.next (h.aluUnary s)⟩
  | ldi a imm => exact ⟨_, rfl, congrArg Host.Outcome.next (h.withReg s fun ra hra => h.setReg_advance s hra imm _)⟩
  | ld a b =>
    refine ⟨_, rfl, congrArg Host.Outcome.next (h.withRegs s fun ra rb hra hrb => ?_)⟩
    rw [h.get _ _ hrb, h.memAt, h.setReg_advance s hra]
  | st a b =>
    refine ⟨_, rfl, congrArg Host.Outcome.next (h.withRegs s fun ra rb hra hrb => ?_)⟩
    rw [h.get _ _ hra, h.get _ _ hrb, h.setMem, h.advance]
  | cmp a b =>
    refine ⟨_, rfl, congrArg Host.Outcome.next (h.withRegs s fun ra rb hra hrb => ?_)⟩
    rw [h.get _ _ hra, h.get _ _ hrb, h.setFlags ⟨a, b, rfl⟩, h.advance]
  | div a b | mod a b => exact ⟨_, rfl, congrArg Host.Outcome.next (h.aluDivide s)⟩
  | add a b | sub a b | mul a b | and a b | or a b | xor a b | shl a b | shr a b =>
    exact ⟨_, rfl, congrArg Host.Outcome.next (h.aluBinary s)⟩

end Machine

end Sys2Proof
end

section
/-! IM and the output port are untouched (10_state.md R23, R35). -/

namespace Sys2Proof.Machine

/-! ### IM -/

/-- IM is untouched by every instruction that does not name it, but for IRET. -/
theorem untouched_mask {i : Instr} (hi : i ≠ .iret) (hops : ∀ b ∈ i.regOperands, b ≠ Reg.r5.toByte) (v : Byte) :
    Untouched i (fun s => s.setReg .r5 v) where
  mem _ := rfl
  pc _ := rfl
  get s _ h := Regs.get_set_ne s.x v (Instr.ne_mask_of_touches hi hops h)
  setReg s _ w h :=
    congrArg (fun x => { s with x := x }) (Regs.set_comm s.x v w (Instr.ne_mask_of_touches hi hops h).symm)
  setMem _ _ _ := rfl
  advance _ _ := rfl
  jumpTo _ _ := rfl
  halt _ := rfl
  takeException _ _ _ _ := rfl
  fl _ _ := rfl
  setFlags _ _ _ := rfl
  emit _ _ _ _ := rfl

/-- IRET overwrites IM before anything could read it. -/
theorem execIret_setReg_mask (s : State) (v : Byte) : execIret (s.setReg .r5 v) = execIret s := by
  simp only [execIret, State.returnFromInterrupt, State.restoreRegs_eq]
  rfl

/-- Settles O39: IM is untouched by the instructions that do not name it, and IRET overwrites it. -/
theorem maskDecidesNothing : Obligations.MaskDecidesNothing := by
  intro i s t v hops ht
  by_cases hi : i = .iret
  · subst hi
    rw [if_pos rfl, ← ht]
    exact execIret_setReg_mask s v
  · obtain ⟨u, hu, hcarried⟩ := exec_of_untouched (untouched_mask hi hops v) s
    obtain rfl : u = t := Host.Outcome.next.inj (hu.symm.trans ht)
    rw [if_neg hi]
    exact hcarried

/-! ### The output port -/

/-- The state with another list of output events. -/
def State.setOut (s : State) (o : List OutEvent) : State := { s with out := o }

/-- The output is untouched by every instruction but PRN and PRA. -/
theorem untouched_out {i : Instr} (hi : ¬∃ a, i = .prn a ∨ i = .pra a) (o : List OutEvent) :
    Untouched i (fun s => s.setOut o) where
  mem _ := rfl
  pc _ := rfl
  get _ _ _ := rfl
  setReg _ _ _ _ := rfl
  setMem _ _ _ := rfl
  advance _ _ := rfl
  jumpTo _ _ := rfl
  halt _ := rfl
  takeException _ _ _ _ := rfl
  fl _ _ := rfl
  setFlags _ _ _ := rfl
  emit h := absurd h hi

/-- An output instruction appends one event, or none when its operand is bad; the event does not depend on the output. -/
theorem State.output_appends (s : State) (i : Instr) (a : Byte) (k : OutKind) (op : Byte) :
    ∃ added, ∀ o, (s.setOut o).output i a k op = (s.output i a k op).setOut (o ++ added) := by
  rcases Nat.lt_or_ge a.toNat 8 with hlt | hbad
  · obtain ⟨r, rfl⟩ := Reg.exists_toByte hlt
    refine ⟨[{ kind := k, value := s.x.get r }], fun o => ?_⟩
    rw [State.output_toByte, State.output_toByte]
    rfl
  · refine ⟨[], fun o => ?_⟩
    rw [State.output, State.output, State.withReg_bad _ op hbad, State.withReg_bad _ op hbad, List.append_nil]
    rfl

/-- Whatever the output was, an instruction appends the same events to it, none unless it is PRN or PRA, and does the same
otherwise. -/
theorem exec_appends_out (i : Instr) (s : State) :
    ∃ (t : State) (added : List OutEvent), (added ≠ [] → ∃ a, i = .prn a ∨ i = .pra a) ∧
      ∀ o, exec i (s.setOut o) = .next (t.setOut (o ++ added)) := by
  by_cases hi : ∃ a, i = .prn a ∨ i = .pra a
  · obtain ⟨a, rfl | rfl⟩ := hi
    · obtain ⟨added, hadded⟩ := s.output_appends (.prn a) a .prn (Instr.opcode (.prn a))
      exact ⟨_, added, fun _ => ⟨a, Or.inl rfl⟩, fun o => congrArg Host.Outcome.next (hadded o)⟩
    · obtain ⟨added, hadded⟩ := s.output_appends (.pra a) a .pra (Instr.opcode (.pra a))
      exact ⟨_, added, fun _ => ⟨a, Or.inr rfl⟩, fun o => congrArg Host.Outcome.next (hadded o)⟩
  · obtain ⟨t, ht, -⟩ := exec_of_untouched (untouched_out hi []) s
    refine ⟨t, [], fun hne => absurd rfl hne, fun o => ?_⟩
    obtain ⟨u, hu, hcarried⟩ := exec_of_untouched (untouched_out hi o) s
    obtain rfl : u = t := Host.Outcome.next.inj (hu.symm.trans ht)
    rw [List.append_nil]
    exact hcarried

/-- Settles O54: the next state is the same for every old output, with the same events appended; at the output `s` has, this
is the step from `s`. -/
theorem outputOnlyGrowsUnread : Obligations.OutputOnlyGrowsUnread := by
  refine ⟨rfl, fun i s t ht => ?_⟩
  obtain ⟨u, added, hkind, happends⟩ := exec_appends_out i s
  obtain rfl : t = u.setOut (s.out ++ added) := Host.Outcome.next.inj (ht.symm.trans (happends s.out))
  exact ⟨added, rfl, hkind, happends⟩

end Sys2Proof.Machine
end

section
/-! Loading bytes (20_memory.md R54, 70_reset_and_hazards.md R272): what a memory reads as after `State.putBytes`. -/

namespace Sys2Proof.Machine

@[simp] theorem State.putBytes_nil (s : State) (a : Nat) : s.putBytes a [] = s := rfl

/-- Bytes at addresses that exist: the first is put at `a`, the rest after it. -/
theorem State.putBytes_cons (s : State) {a : Nat} (ha : a < 256) (v : Byte) (bs : List Byte) :
    s.putBytes a (v :: bs) = State.putBytes { s with mem := s.mem.put a v } (a + 1) bs := by
  simp [State.putBytes, Memory.write?, ha]

/-- Loading touches memory alone. -/
theorem State.putBytes_eq_mem (s : State) (a : Nat) (bs : List Byte) :
    s.putBytes a bs = { s with mem := (s.putBytes a bs).mem } := by
  induction bs generalizing s a with
  | nil => rfl
  | cons v bs ih => exact ih _ _

/-- Outside the range loaded every cell keeps its byte. -/
theorem State.byteAt_putBytes_outside (s : State) {a c : Nat} {bs : List Byte} (hlen : a + bs.length ≤ 256)
    (hc : c < a ∨ a + bs.length ≤ c) : (s.putBytes a bs).mem.byteAt c = s.mem.byteAt c := by
  induction bs generalizing s a with
  | nil => rfl
  | cons v bs ih =>
    simp only [List.length_cons] at hlen hc
    rw [s.putBytes_cons (by omega), ih _ (by omega) (by omega)]
    exact Memory.byteAt_put_ne v (by omega)

/-- The `k`-th byte loaded is read at the `k`-th address. -/
theorem State.byteAt_putBytes_inside {s : State} (hm : s.mem.wf) {a k : Nat} {bs : List Byte}
    (hlen : a + bs.length ≤ 256) (hk : k < bs.length) : (s.putBytes a bs).mem.byteAt (a + k) = bs[k] := by
  induction bs generalizing s a k with
  | nil => cases hk
  | cons v bs ih =>
    simp only [List.length_cons] at hlen hk
    have ha : a < 256 := by omega
    rw [s.putBytes_cons ha]
    cases k with
    | zero =>
      rw [State.byteAt_putBytes_outside _ (by omega) (by omega)]
      exact Memory.byteAt_put_self hm.1 a v
    | succ k =>
      rw [show a + (k + 1) = a + 1 + k by omega]
      exact ih (Memory.put_wf hm ha v) (by omega) (by omega)

/-- A program loads exactly when it fits. -/
theorem hostLoadProgram_eq_some {s t : State} {p : List Byte} :
    hostLoadProgram s p = some t ↔ p.length ≤ 256 ∧ s.putBytes 0 p = t :=
  Option.ite_none_right_eq_some.trans (and_congr_right' Option.some_inj)

/-- A loaded program is read from 0 and every other cell as before. -/
theorem read?_of_hostLoadProgram {s t : State} {p : List Byte} (hm : s.mem.wf) (h : hostLoadProgram s p = some t) :
    (∀ k, k < p.length → t.mem.read? k = p[k]?) ∧ (∀ k, p.length ≤ k → t.mem.read? k = s.mem.read? k) := by
  obtain ⟨hlen, rfl⟩ := hostLoadProgram_eq_some.mp h
  refine ⟨fun k hk => ?_, fun k hk => ?_⟩
  · have hb := State.byteAt_putBytes_inside (a := 0) hm (by omega) hk
    rw [Memory.read?_of_lt (by omega), List.getElem?_eq_getElem hk, ← hb, Nat.zero_add]
  · have hb := s.byteAt_putBytes_outside (a := 0) (bs := p) (by omega) (c := k) (by omega)
    simp only [Memory.read?, hb]

theorem State.reset_read? {a : Nat} (h : a < 256) : State.reset.mem.read? a = some 0#8 := Memory.read?_of_lt h

theorem State.reset_get (r : Reg) : State.reset.x.get r = if r = .r7 then 0xF4#8 else 0#8 := by
  cases r <;> rfl

/-- Settles O48: the reset state field by field, and the load by the laws of `putBytes`. -/
theorem resetState : Obligations.ResetState := by
  refine ⟨fun _ => State.reset_read?, State.reset_get, rfl, rfl, rfl, rfl, rfl, fun p s hload => ?_⟩
  obtain ⟨hprogram, hrest⟩ := read?_of_hostLoadProgram State.reset_mem_wf hload
  refine ⟨hprogram, fun k hk h256 => (hrest k hk).trans (State.reset_read? h256), ?_⟩
  obtain ⟨-, rfl⟩ := hostLoadProgram_eq_some.mp hload
  exact State.putBytes_eq_mem _ 0 p

end Sys2Proof.Machine
end

section
/-! The length of an instruction (30_encoding.md R72, R77): bytes that decode are the bytes of the instruction decoded, and
its table entry, which the opcode byte alone selects, has the operand count of the opcode's bits 7:6. -/

namespace Sys2Proof

/-! ### Every instruction has its table entry -/

namespace Laws.OpcodeListed

/-- Every instruction's opcode is listed with its operand count, constructor by constructor. -/
theorem all : ∀ i : Instr, Statement i
  | .nop => nop | .hlt => hlt | .ret => ret | .iret => iret
  | .push a => push a | .pop a => pop a | .prn a => prn a | .pra a => pra a
  | .call a => call a | .int a => int a | .jmp a => jmp a
  | .jeq a => jeq a | .jne a => jne a | .jgt a => jgt a | .jlt a => jlt a | .jle a => jle a | .jge a => jge a
  | .inc a => inc a | .dec a => dec a | .not a => not a
  | .ldi a imm => ldi a imm | .ld a b => ld a b | .st a b => st a b
  | .add a b => add a b | .sub a b => sub a b | .mul a b => mul a b | .div a b => div a b | .mod a b => mod a b
  | .cmp a b => cmp a b | .and a b => and a b | .or a b => or a b | .xor a b => xor a b
  | .shl a b => shl a b | .shr a b => shr a b

end Laws.OpcodeListed

/-- Bits 7:6 of a listed opcode byte are the operand count of its row (R72). -/
theorem operands_of_lookupOpcode {op : Byte} {row : TableRow} (h : lookupOpcode op = some row) :
    row.format.operands = op.toNat / 64 := by
  have htable : ∀ row ∈ instructionTable, row.format.operands = row.opcode.toNat / 64 := by decide
  obtain ⟨hmem, rfl⟩ := lookupOpcode_eq_some h
  exact htable row hmem

/-! ### Bytes that decode are the bytes of the instruction decoded -/

/-- What a format makes of operand bytes is encoded as the opcode byte `op` and those bytes. -/
def Format.EncodesTo (op : Byte) : Format → Prop
  | .f0 i => encode i = [op]
  | .f1r make => ∀ a, encode (make a) = [op, a]
  | .f2rr make => ∀ a b, encode (make a b) = [op, a, b]
  | .f2ri make => ∀ a imm, encode (make a imm) = [op, a, imm]

/-- The encoder spells every row's instructions with that row's opcode byte. -/
theorem instructionTable_encodesTo : ∀ row ∈ instructionTable, row.format.EncodesTo row.opcode := by
  simp [instructionTable, tableNoOperand, tableStackOutput, tableControl, tableUnaryAlu, tableData, tableBinaryAlu,
    Format.EncodesTo, encode, Instr.opcode, Instr.operandBytes]

/-- A format takes from the bytes after the opcode just the operand bytes of the instruction it makes. -/
theorem Format.EncodesTo.encode_append {op : Byte} {f : Format} (hf : f.EncodesTo op) {rest tail : List Byte} {i : Instr}
    (h : f.decode op rest = .ok (i, tail)) : encode i ++ tail = op :: rest := by
  cases f with
  | f0 j => cases h; exact congrArg (· ++ rest) hf
  | f1r make =>
    cases rest with
    | nil => cases h
    | cons a rest => cases h; exact congrArg (· ++ tail) (hf a)
  | f2rr make | f2ri make =>
    match rest with
    | [] | [_] => cases h
    | a :: b :: rest => cases h; exact congrArg (· ++ tail) (hf a b)

/-- Decoding is undone by the encoder. -/
theorem encode_append_of_decode {bytes tail : List Byte} {i : Instr} (h : decode bytes = .ok (i, tail)) :
    encode i ++ tail = bytes := by
  cases bytes with
  | nil => cases h
  | cons op rest =>
    simp only [decode] at h
    split at h
    · cases h
    · next row hrow =>
      obtain ⟨hmem, rfl⟩ := lookupOpcode_eq_some hrow
      exact (instructionTable_encodesTo row hmem).encode_append h

/-- Settles O4: `op` is the opcode byte of the instruction decoded, whose table entry gives the size; the bytes taken are
its operand bytes. -/
theorem lengthFromOpcodeAlone : Obligations.LengthFromOpcodeAlone := by
  intro op rest i tail h
  obtain ⟨rfl, rfl⟩ : i.opcode = op ∧ i.operandBytes ++ tail = rest := List.cons.inj (encode_append_of_decode h)
  obtain ⟨row, hrow, hsize⟩ := Laws.OpcodeListed.all i
  have hcount : row.format.operands = i.opcode.toNat / 64 := operands_of_lookupOpcode hrow
  have hbytes : i.operandBytes.length = i.opcode.toNat / 64 := (Nat.add_left_cancel hsize).symm.trans hcount
  exact ⟨congrArg (1 + ·) hbytes, by rw [List.length_append, hbytes, Nat.add_comm], row, hrow, hcount⟩

end Sys2Proof
end

section
/-! The default pc advance (30_encoding.md R73): a next state that is RUNNING has not faulted, so its pc is the one the
effect of the instruction sets. -/

namespace Sys2Proof.Machine

variable (s : State) {op a b : Byte} {n : Nat}

/-- A bad operand halts, so the pc of a RUNNING next state is the effect's. -/
theorem State.withReg_pc_of_running {f : Reg → State} (hf : ∀ r, (f r).run = .running → (f r).pc = n)
    (h : (s.withReg op a f).run = .running) : (s.withReg op a f).pc = n := by
  rcases s.withReg_cases op a f with ⟨r, -, heffect⟩ | ⟨-, hfault⟩
  · rw [heffect] at h ⊢
    exact hf r h
  · rw [hfault] at h
    cases h

theorem State.withRegs_pc_of_running {f : Reg → Reg → State}
    (hf : ∀ ra rb, (f ra rb).run = .running → (f ra rb).pc = n)
    (h : (s.withRegs op a b f).run = .running) : (s.withRegs op a b f).pc = n :=
  s.withReg_pc_of_running (fun ra => s.withReg_pc_of_running (hf ra)) h

/-- A division that does not halt has a divisor other than 0, and advances. -/
theorem State.aluDivide_pc_of_running {i : Instr} {f : Byte → Byte → Byte}
    (h : (s.aluDivide i a b f op).run = .running) : (s.aluDivide i a b f op).pc = s.pc + i.size := by
  refine s.withRegs_pc_of_running (fun ra rb hrun => ?_) h
  split at hrun
  · cases hrun
  · next hdivisor => rw [if_neg hdivisor]; rfl

/-- Settles O53: the size by the table entry; the pc by the operand forms, whose effect advances by the size in every
instruction that is no jump, CALL, RET, IRET or HLT. -/
theorem defaultAdvanceIsSize : Obligations.DefaultAdvanceIsSize := by
  intro i s t
  obtain ⟨row, hrow, hsize⟩ := Laws.OpcodeListed.all i
  refine ⟨⟨row, hrow, hsize.symm⟩, fun h hrun => ?_⟩
  cases i with
  | jmp _ | jeq _ | jne _ | jgt _ | jlt _ | jle _ | jge _ | call _ | ret | iret => trivial
  | nop => cases h; rfl
  | hlt => cases h; cases hrun
  | div a b | mod a b => cases h; exact s.aluDivide_pc_of_running hrun
  | push a | pop a | prn a | pra a | int a | inc a | dec a | not a | ldi a imm =>
    cases h; exact s.withReg_pc_of_running (fun _ _ => rfl) hrun
  | ld a b | st a b | cmp a b | add a b | sub a b | mul a b | and a b | or a b | xor a b | shl a b | shr a b =>
    cases h; exact s.withRegs_pc_of_running (fun _ _ _ => rfl) hrun

end Sys2Proof.Machine
end

section
/-! Fetch and the step (40_cycle.md R101 to R106): what the bytes at the pc decode to, and what a RUNNING CORE makes of
it. -/

namespace Sys2Proof

/-! ### Decoding -/

/-- The decoder reads back the encoder's bytes and leaves the rest. -/
theorem decode_encode_append (i : Instr) (rest : List Byte) : decode (encode i ++ rest) = .ok (i, rest) := by
  cases i <;> rfl

theorem encode_length_le (i : Instr) : (encode i).length ≤ maxInstrBytes := by
  cases i <;> exact Nat.le_of_ble_eq_true rfl

/-- With its row found, an opcode byte leaves the rest to the row's format. -/
theorem decode_cons {op : Byte} {row : TableRow} (hrow : lookupOpcode op = some row) (rest : List Byte) :
    decode (op :: rest) = row.format.decode op rest := by
  simp only [decode, hrow]

/-- The opcode byte a failed decoding names, none when there was no byte. -/
def DecodeError.opcode : DecodeError → Option Byte
  | .noOpcode => none
  | .unknownOpcode op => some op
  | .noOperand op _ => some op

theorem Format.opcode_of_decode_error {op : Byte} {f : Format} {rest : List Byte} {e : DecodeError}
    (h : f.decode op rest = .error e) : e.opcode = some op := by
  cases f with
  | f0 i => cases h
  | f1r make =>
    match rest with
    | [] => cases h; rfl
    | _ :: _ => cases h
  | f2rr make | f2ri make =>
    match rest with
    | [] | [_] => cases h; rfl
    | _ :: _ :: _ => cases h

/-- A failed decoding names the first byte. -/
theorem opcode_of_decode_error {bytes : List Byte} {e : DecodeError} (h : decode bytes = .error e) :
    e.opcode = bytes.head? := by
  cases bytes with
  | nil => cases h; rfl
  | cons op rest =>
    cases hrow : lookupOpcode op with
    | none =>
      simp only [decode, hrow] at h
      cases h
      rfl
    | some row => exact Format.opcode_of_decode_error (decode_cons hrow rest ▸ h)

/-- A successful decoding has the instruction's opcode as its first byte. -/
theorem head?_of_decode {bytes tail : List Byte} {i : Instr} (h : decode bytes = .ok (i, tail)) :
    bytes.head? = some i.opcode := by
  rw [← encode_append_of_decode h]
  rfl

namespace Machine

/-! ### The bytes at the pc -/

theorem Memory.bytesFrom_succ_none {m : Memory} {a : Nat} (h : m.read? a = none) (n : Nat) :
    m.bytesFrom a (n + 1) = [] := by
  simp only [Memory.bytesFrom, h]

theorem Memory.bytesFrom_succ_some {m : Memory} {a : Nat} {b : Byte} (h : m.read? a = some b) (n : Nat) :
    m.bytesFrom a (n + 1) = b :: m.bytesFrom (a + 1) n := by
  simp only [Memory.bytesFrom, h]

theorem Memory.head?_bytesFrom_succ (m : Memory) (a n : Nat) : (m.bytesFrom a (n + 1)).head? = m.read? a := by
  cases h : m.read? a with
  | none => rw [Memory.bytesFrom_succ_none h, List.head?_nil]
  | some b => rw [Memory.bytesFrom_succ_some h, List.head?_cons]

/-- Bytes that stand at `a` are the first of those collected from `a`. -/
theorem Memory.bytesFrom_eq_append {m : Memory} {a n : Nat} {bs : List Byte} (hlen : bs.length ≤ n)
    (h : ∀ k, k < bs.length → m.read? (a + k) = bs[k]?) :
    m.bytesFrom a n = bs ++ m.bytesFrom (a + bs.length) (n - bs.length) := by
  induction bs generalizing a n with
  | nil => rfl
  | cons b bs ih =>
    obtain ⟨n, rfl⟩ : ∃ k, n = k + 1 := Nat.exists_eq_succ_of_ne_zero (Nat.ne_zero_of_lt hlen)
    have hfirst : m.read? a = some b := h 0 (Nat.zero_lt_succ _)
    have hrest : ∀ k, k < bs.length → m.read? (a + 1 + k) = bs[k]? := fun k hk => by
      simpa [Nat.add_assoc, Nat.add_comm 1] using h (k + 1) (Nat.succ_lt_succ hk)
    rw [Memory.bytesFrom_succ_some hfirst, ih (Nat.le_of_succ_le_succ hlen) hrest, List.length_cons,
      Nat.add_sub_add_right, Nat.add_assoc a 1, Nat.add_comm 1, List.cons_append]

variable {s t : State} {i : Instr} {op : Byte}

/-! ### Fetch -/

theorem fetch_of_read?_none (h : s.mem.read? s.pc = none) : fetch s = .error .noOpcode := by
  rw [fetch, maxInstrBytes, Memory.bytesFrom_succ_none h]
  rfl

theorem fetch_of_lookup_none (h : s.mem.read? s.pc = some op) (hrow : lookupOpcode op = none) :
    fetch s = .error (.unknownOpcode op) := by
  rw [fetch, maxInstrBytes, Memory.bytesFrom_succ_some h]
  simp only [decode, hrow]

/-- With the opcode's row found, the row's format takes its operands from the bytes after the opcode. -/
theorem fetch_of_lookup_some {row : TableRow} (h : s.mem.read? s.pc = some op) (hrow : lookupOpcode op = some row) :
    fetch s = row.format.decode op (s.mem.bytesFrom (s.pc + 1) 2) := by
  rw [fetch, maxInstrBytes, Memory.bytesFrom_succ_some h, decode_cons hrow]

theorem fetch_of_encode (h : ∀ k, k < (encode i).length → s.mem.read? (s.pc + k) = (encode i)[k]?) :
    ∃ rest, fetch s = .ok (i, rest) := by
  rw [fetch, Memory.bytesFrom_eq_append (encode_length_le i) h]
  exact ⟨_, decode_encode_append i _⟩

/-- The opcode of an instruction fetched is the byte at the pc. -/
theorem read?_of_fetch {rest : List Byte} (h : fetch s = .ok (i, rest)) : s.mem.read? s.pc = some i.opcode :=
  (s.mem.head?_bytesFrom_succ s.pc 2).symm.trans (head?_of_decode h)

/-- An exception of fetch records the byte at the pc, if there is one, and is no ArithmeticError. -/
theorem takeFetchException_of_fetch {e : DecodeError} (h : fetch s = .error e) :
    ∃ k d, s.takeFetchException e = s.takeException k (s.mem.read? s.pc) d := by
  have hopcode : e.opcode = s.mem.read? s.pc :=
    (opcode_of_decode_error h).trans (s.mem.head?_bytesFrom_succ s.pc 2)
  rw [← hopcode]
  cases e <;> exact ⟨_, _, rfl⟩

/-! ### The step -/

theorem step_of_fetch_ok {rest : List Byte} (hrun : s.run = .running) (h : fetch s = .ok (i, rest)) :
    step s = exec i s := by
  simp only [step, hrun, h]

theorem step_of_fetch_error {e : DecodeError} (hrun : s.run = .running) (h : fetch s = .error e) :
    step s = .next (s.takeFetchException e) := by
  simp only [step, hrun, h]

theorem step_of_halted (h : s.run = .halted) : step s = .fault .halted := by
  simp only [step, h]

/-- Settles O7: the bytes at the pc decode to `i`, and the step executes what it fetched. -/
theorem stepRunsInstructionAtPc : Obligations.StepRunsInstructionAtPc := by
  intro s i hrun hbytes
  obtain ⟨rest, hfetch⟩ := fetch_of_encode hbytes
  exact step_of_fetch_ok hrun hfetch

/-- Every instruction has a meaning, and its exceptions are next states. -/
theorem exec_eq_next (i : Instr) (s : State) : ∃ t, exec i s = .next t := by
  cases i <;> exact ⟨_, rfl⟩

/-- Settles O9: a fetch that fails and every instruction give a next state; HALTED is `step`'s only fault. -/
theorem stepExistsOnlyWhileRunning : Obligations.StepExistsOnlyWhileRunning := by
  refine fun s => ⟨fun hrun => ?_, fun hhalted t => by simp [step_of_halted hhalted]⟩
  rcases hfetch : fetch s with e | ⟨i, rest⟩
  · exact ⟨_, step_of_fetch_error hrun hfetch⟩
  · rw [step_of_fetch_ok hrun hfetch]
    exact exec_eq_next i s

end Machine

end Sys2Proof
end

section
/-! The step as the spec's sequence of checks (40_cycle.md R104, R106): the register-index check that an instruction's own
meaning makes is the one its format asks for. -/

namespace Sys2Proof

/-- The register operands of what a format makes: one for `F1R`, both for `F2RR`, the first alone for `F2RI`. -/
def Format.ChecksRegisters : Format → Prop
  | .f0 i => i.regOperands = []
  | .f1r make => ∀ a, (make a).regOperands = [a]
  | .f2rr make => ∀ a b, (make a b).regOperands = [a, b]
  | .f2ri make => ∀ a imm, (make a imm).regOperands = [a]

theorem checksRegisters_of_lookupOpcode {op : Byte} {row : TableRow} (h : lookupOpcode op = some row) :
    row.format.ChecksRegisters := by
  have htable : ∀ row ∈ instructionTable, row.format.ChecksRegisters := by
    simp [instructionTable, tableNoOperand, tableStackOutput, tableControl, tableUnaryAlu, tableData, tableBinaryAlu,
      Format.ChecksRegisters, Instr.regOperands]
  exact htable row (lookupOpcode_eq_some h).1

theorem encodesTo_of_lookupOpcode {op : Byte} {row : TableRow} (h : lookupOpcode op = some row) :
    row.format.EncodesTo op := by
  obtain ⟨hmem, rfl⟩ := lookupOpcode_eq_some h
  exact instructionTable_encodesTo row hmem

namespace Machine

variable {i : Instr}

/-- The register checks before an instruction: the first bad operand of `bs` faults, else it executes. -/
def checkOperands (i : Instr) (s : State) (op : Byte) : List Byte → Result
  | [] => exec i s
  | b :: bs =>
    if 8 ≤ b.toNat then .next (s.takeException .addressingFault (some op) (.registerIndex b))
    else checkOperands i s op bs

theorem checkOperands_eq (i : Instr) (s : State) (op : Byte) (bs : List Byte) :
    checkOperands i s op bs = (bs.find? (fun b => !validIndex b)).elim (exec i s)
      (fun b => .next (s.takeException .addressingFault (some op) (.registerIndex b))) := by
  induction bs with
  | nil => rfl
  | cons b bs ih =>
    by_cases hb : 8 ≤ b.toNat
    · simp [checkOperands, hb, validIndex_eq_false.mpr hb]
    · simpa [checkOperands, hb, validIndex, Nat.lt_of_not_le hb] using ih

/-- An instruction makes the register checks of its own operands. -/
theorem exec_eq_checkOperands (i : Instr) (s : State) : exec i s = checkOperands i s i.opcode i.regOperands := by
  rw [checkOperands_eq]
  cases h : i.regOperands.find? (fun b => !validIndex b) with
  | none => rfl
  | some b => exact badRegisterOperandFaults i s b h

/-- An instruction made by a row of the table is preceded by the checks its format asks for, under the row's opcode. -/
theorem exec_eq_checkOperands_of_encode {op : Byte} {bs rest : List Byte} (hencode : encode i = op :: rest)
    (hregs : i.regOperands = bs) (s : State) : exec i s = checkOperands i s op bs := by
  obtain ⟨rfl, -⟩ := List.cons.inj hencode
  exact hregs ▸ exec_eq_checkOperands i s

/-- Settles O8: the fetch fails where a byte of the instruction is missing or the opcode has no row; else the instruction
fetched is executed, which checks the register operands its format has. -/
theorem stepFollowsCycle : Obligations.StepFollowsCycle := by
  intro s hrun raise check
  cases hop : s.mem.read? s.pc with
  | none => exact step_of_fetch_error hrun (fetch_of_read?_none hop)
  | some op =>
    cases hrow : lookupOpcode op with
    | none =>
      simp only [hrow]
      exact step_of_fetch_error hrun (fetch_of_lookup_none hop hrow)
    | some row =>
      have hfetch := fetch_of_lookup_some hop hrow
      have hencode := encodesTo_of_lookupOpcode hrow
      have hregs := checksRegisters_of_lookupOpcode hrow
      cases hformat : row.format with
      | f0 i =>
        simp only [hrow, hformat] at hfetch ⊢
        exact step_of_fetch_ok hrun hfetch
      | f1r make =>
        simp only [hrow, hformat] at hfetch hencode hregs ⊢
        cases h1 : s.mem.read? (s.pc + 1) with
        | none =>
          rw [Memory.bytesFrom_succ_none h1] at hfetch
          exact step_of_fetch_error hrun hfetch
        | some a =>
          rw [Memory.bytesFrom_succ_some h1] at hfetch
          exact (step_of_fetch_ok hrun hfetch).trans
            (exec_eq_checkOperands_of_encode (hencode a) (hregs a) s)
      | f2rr make | f2ri make =>
        simp only [hrow, hformat] at hfetch hencode hregs ⊢
        cases h1 : s.mem.read? (s.pc + 1) with
        | none =>
          rw [Memory.bytesFrom_succ_none h1] at hfetch
          exact step_of_fetch_error hrun hfetch
        | some a =>
          rw [Memory.bytesFrom_succ_some h1] at hfetch
          cases h2 : s.mem.read? (s.pc + 2) with
          | none =>
            rw [Memory.bytesFrom_succ_none h2] at hfetch
            exact step_of_fetch_error hrun hfetch
          | some b =>
            rw [Memory.bytesFrom_succ_some h2] at hfetch
            exact (step_of_fetch_ok hrun hfetch).trans
              (exec_eq_checkOperands_of_encode (hencode a b) (hregs a b) s)

end Machine

end Sys2Proof
end

section
/-! How a step halts (10_state.md R33, 40_cycle.md R107, 60_exceptions.md R242): the run-state and the halt reason are
written by HLT and by exceptions alone. -/

namespace Sys2Proof.Machine

variable {i : Instr} {s t : State} {op a b : Byte}

/-- `t` has the run-state and the halt reason of `s`. -/
def State.SameRun (s t : State) : Prop := t.run = s.run ∧ t.why = s.why

/-- With no bad operand every register operand names a register. -/
theorem exists_toByte_of_mem_regOperands (hi : i.firstBadOperand = none) (ha : a ∈ i.regOperands) :
    ∃ r : Reg, a = r.toByte := by
  have hvalid : ∀ c ∈ i.regOperands, validIndex c = true := by simpa [Instr.firstBadOperand] using hi
  exact Reg.exists_toByte (of_decide_eq_true (hvalid a ha))

/-! An operand's membership below is found by `simp` where `i` is a constructor. -/

theorem State.withReg_sameRun {f : Reg → State} (hi : i.firstBadOperand = none) (hf : ∀ r, s.SameRun (f r))
    (ha : a ∈ i.regOperands := by simp [Instr.regOperands]) : s.SameRun (s.withReg op a f) := by
  obtain ⟨r, rfl⟩ := exists_toByte_of_mem_regOperands hi ha
  exact (s.withReg_toByte op r f).symm ▸ hf r

theorem State.withRegs_sameRun {f : Reg → Reg → State} (hi : i.firstBadOperand = none)
    (hf : ∀ ra rb, s.SameRun (f ra rb)) (ha : a ∈ i.regOperands := by simp [Instr.regOperands])
    (hb : b ∈ i.regOperands := by simp [Instr.regOperands]) : s.SameRun (s.withRegs op a b f) :=
  State.withReg_sameRun hi (fun ra => State.withReg_sameRun hi (hf ra) hb) ha

theorem State.jumpIf_sameRun {c : Flags → Bool} (hi : i.firstBadOperand = none)
    (ha : a ∈ i.regOperands := by simp [Instr.regOperands]) : s.SameRun (s.jumpIf i a c op) := by
  refine State.withReg_sameRun hi (fun ra => ?_) ha
  split <;> exact ⟨rfl, rfl⟩

/-- What an instruction can make of the run-state: it keeps it, or it is HLT, or it takes one of its two exceptions. -/
inductive RunEffect (i : Instr) (s t : State) : Prop
  | kept (hsame : s.SameRun t)
  | hlt (hi : i = .hlt) (ht : t = s.halt)
  | badOperand (b : Byte) (hb : i.firstBadOperand = some b)
      (ht : t = s.takeException .addressingFault (some i.opcode) (.registerIndex b))
  | zeroDivisor (ra rb : Reg) (hi : i = .div ra.toByte rb.toByte ∨ i = .mod ra.toByte rb.toByte)
      (hzero : s.x.get rb = 0#8) (ht : t = s.takeException .arithmeticError (some i.opcode) (.divisor rb))

/-- A division of valid operands keeps the run-state unless its divisor is 0. -/
theorem State.aluDivide_runEffect {f : Byte → Byte → Byte} (hbad : i.firstBadOperand = none)
    (hi : i = .div a b ∨ i = .mod a b) (ha : a ∈ i.regOperands := by simp [Instr.regOperands])
    (hb : b ∈ i.regOperands := by simp [Instr.regOperands]) : RunEffect i s (s.aluDivide i a b f) := by
  obtain ⟨ra, rfl⟩ := exists_toByte_of_mem_regOperands hbad ha
  obtain ⟨rb, rfl⟩ := exists_toByte_of_mem_regOperands hbad hb
  by_cases hzero : s.x.get rb = 0#8
  · exact .zeroDivisor ra rb hi hzero (s.aluDivide_zero i _ ra rb f hzero)
  · exact .kept ((s.aluDivide_ne_zero i i.opcode ra rb f hzero).symm ▸ ⟨rfl, rfl⟩)

/-- Every instruction has one of these effects: with a bad operand it faults, else it runs its effect. -/
theorem exec_runEffect (h : exec i s = .next t) : RunEffect i s t := by
  cases hbad : i.firstBadOperand with
  | some b => exact .badOperand b hbad (Host.Outcome.next.inj (h.symm.trans (badRegisterOperandFaults i s b hbad)))
  | none =>
    cases i with
    | hlt => cases h; exact .hlt rfl rfl
    | nop | ret => cases h; exact .kept ⟨rfl, rfl⟩
    | iret =>
      cases h
      obtain ⟨-, hrun, hwhy, -⟩ := s.returnFromInterrupt_frame Config.iretRestoresFl
      exact .kept ⟨hrun, hwhy⟩
    | jeq a | jne a | jgt a | jlt a | jle a | jge a => cases h; exact .kept (State.jumpIf_sameRun hbad)
    | push a | pop a | prn a | pra a | call a | int a | jmp a | inc a | dec a | not a | ldi a imm =>
      cases h; exact .kept (State.withReg_sameRun hbad fun _ => ⟨rfl, rfl⟩)
    | div a b => cases h; exact State.aluDivide_runEffect hbad (Or.inl rfl)
    | mod a b => cases h; exact State.aluDivide_runEffect hbad (Or.inr rfl)
    | ld a b | st a b | cmp a b | add a b | sub a b | mul a b | and a b | or a b | xor a b | shl a b | shr a b =>
      cases h; exact .kept (State.withRegs_sameRun hbad fun _ _ => ⟨rfl, rfl⟩)

theorem Instr.firstBadOperand_of_wellFormed (h : i.wellFormed = true) : i.firstBadOperand = none := by
  simpa [Instr.firstBadOperand, Instr.wellFormed] using h

/-- Settles O13: of the effects an instruction can have, the hypotheses leave the one that keeps the run-state. -/
theorem onlyHltAndExceptionsHalt : Obligations.OnlyHltAndExceptionsHalt := by
  intro i s t hwf hhlt hdivisor h
  cases exec_runEffect h with
  | kept hsame => exact hsame
  | hlt hi => exact absurd hi hhlt
  | badOperand b hb => simp [Instr.firstBadOperand_of_wellFormed hwf] at hb
  | zeroDivisor ra rb hi hzero => exact absurd hzero (hdivisor _ rb hi)

/-- A RUNNING CORE halts by HLT or by taking an exception that records the byte at the pc. -/
theorem step_halted (hrun : s.run = .running) (hstep : step s = .next t) (hhalted : t.run = .halted) :
    t = s.halt ∨ ∃ k d, t = s.takeException k (s.mem.read? s.pc) d := by
  rcases hfetch : fetch s with e | ⟨i, rest⟩
  · rw [step_of_fetch_error hrun hfetch] at hstep
    cases hstep
    exact Or.inr (takeFetchException_of_fetch hfetch)
  · rw [step_of_fetch_ok hrun hfetch] at hstep
    rw [read?_of_fetch hfetch]
    cases exec_runEffect hstep with
    | kept hsame => simp [hsame.1, hrun] at hhalted
    | hlt _ ht => exact Or.inl ht
    | badOperand _ _ ht | zeroDivisor _ _ _ _ ht => exact Or.inr ⟨_, _, ht⟩

theorem pcAfterException_eq (k : ExceptionKind) (fpc : Nat) :
    pcAfterException k fpc = if k = .arithmeticError then fpc + 3 else fpc := by
  cases k <;> rfl

/-- Settles O12: HLT and an exception write no field but the pc, the run-state and the halt reason. -/
theorem haltingStepIsPrecise : Obligations.HaltingStepIsPrecise := by
  intro s t hrun hstep hhalted
  obtain rfl | ⟨k, d, rfl⟩ := step_halted hrun hstep hhalted
  · exact ⟨rfl, rfl, rfl, rfl, Or.inl ⟨rfl, rfl⟩⟩
  · exact ⟨rfl, rfl, rfl, rfl, Or.inr ⟨_, rfl, rfl, rfl, pcAfterException_eq k s.pc⟩⟩

end Sys2Proof.Machine
end

section
/-! The ALU's results (41_alu.md R120 to R134): the operations of the word written as the spec writes them, in the integers
modulo 256, and the next state of each ALU shape at operands that name registers. -/

namespace Sys2Proof

/-! ### Arithmetic of `mod256` -/

@[simp] theorem mod256_natCast (n : Nat) : mod256 n = BitVec.ofNat 8 n := BitVec.ofInt_natCast 8 n

theorem mod256_toNat (x : Byte) : mod256 x.toNat = x := by simp

theorem mod256_add (v w : Int) : mod256 (v + w) = mod256 v + mod256 w := BitVec.ofInt_add v w

theorem mod256_mul (v w : Int) : mod256 (v * w) = mod256 v * mod256 w := BitVec.ofInt_mul v w

theorem mod256_sub (v w : Int) : mod256 (v - w) = mod256 v - mod256 w := by
  rw [eq_sub_iff_add_eq, ← mod256_add, sub_add_cancel]

/-! ### The word's operations as integers modulo 256 -/

section
variable (x y : Byte)

theorem mod256_div : mod256 ((x.toNat / y.toNat : Nat) : Int) = x / y := by
  rw [← BitVec.toNat_udiv, mod256_toNat]

theorem mod256_mod : mod256 ((x.toNat % y.toNat : Nat) : Int) = x % y := by
  rw [← BitVec.toNat_umod, mod256_toNat]

theorem mod256_shiftLeft (n : Nat) : mod256 ((x.toNat * 2 ^ n : Nat) : Int) = x <<< n := by
  rw [mod256_natCast, ← Nat.shiftLeft_eq, ← BitVec.toNat_inj, BitVec.toNat_ofNat, BitVec.toNat_shiftLeft]

theorem mod256_shiftRight (n : Nat) : mod256 ((x.toNat / 2 ^ n : Nat) : Int) = x >>> n := by
  rw [← Nat.shiftRight_eq_div_pow, ← BitVec.toNat_ushiftRight, mod256_toNat]

theorem mod256_not : mod256 (255 - x.toNat) = ~~~x := by
  rw [mod256_sub, mod256_toNat]
  exact BitVec.allOnes_sub_eq_not x

end

namespace Machine

/-! ### The next state of each ALU shape, for a result known as `v` -/

section
variable (s : State) (i : Instr) (op : Byte) (ra rb : Reg) {v : Byte}

theorem State.aluBinary_eq {f : Byte → Byte → Byte} (hv : v = f (s.x.get ra) (s.x.get rb)) :
    s.aluBinary i ra.toByte rb.toByte f op = { s with x := s.x.set ra v, pc := s.pc + i.size } := by
  rw [hv]
  exact s.aluBinary_toByte i op ra rb f

theorem State.aluUnary_eq {f : Byte → Byte} (hv : v = f (s.x.get ra)) :
    s.aluUnary i ra.toByte f op = { s with x := s.x.set ra v, pc := s.pc + i.size } := by
  rw [hv]
  exact s.aluUnary_toByte i op ra f

/-- The divisor decides, by its value, between ArithmeticError and the result. -/
theorem State.aluDivide_eq {f : Byte → Byte → Byte} (hv : v = f (s.x.get ra) (s.x.get rb)) :
    s.aluDivide i ra.toByte rb.toByte f op =
      if (s.x.get rb).toNat = 0 then s.takeException .arithmeticError (some op) (.divisor rb)
      else { s with x := s.x.set ra v, pc := s.pc + i.size } := by
  have hiff : (s.x.get rb).toNat = 0 ↔ s.x.get rb = 0#8 := BitVec.toNat_inj (y := 0#8)
  by_cases hzero : s.x.get rb = 0#8
  · rw [s.aluDivide_zero i op ra rb f hzero, if_pos (hiff.mpr hzero)]
  · rw [s.aluDivide_ne_zero i op ra rb f hzero, if_neg (mt hiff.mp hzero), hv]
    rfl

end

/-! ### Binary and unary operations -/

/-- Settles O15: `mod256` carries sum, difference and product of integers to those of words. -/
theorem addSubMulResult : Obligations.AddSubMulResult := by
  intro ra rb s x y written
  have hx : mod256 x = s.x.get ra := mod256_toNat _
  have hy : mod256 y = s.x.get rb := mod256_toNat _
  refine ⟨⟨rfl, ?_⟩, ⟨rfl, ?_⟩, ⟨rfl, ?_⟩⟩
  · exact congrArg Host.Outcome.next (s.aluBinary_eq _ _ ra rb (by rw [mod256_add, hx, hy]))
  · exact congrArg Host.Outcome.next (s.aluBinary_eq _ _ ra rb (by rw [mod256_sub, hx, hy]))
  · exact congrArg Host.Outcome.next (s.aluBinary_eq _ _ ra rb (by rw [mod256_mul, hx, hy]))

/-- Settles O16: the quotient and the remainder of two words fit in a word. -/
theorem divModResult : Obligations.DivModResult := by
  intro ra rb s n d written fatal
  refine ⟨⟨rfl, ?_⟩, ⟨rfl, ?_⟩⟩
  · exact (congrArg Host.Outcome.next (s.aluDivide_eq _ _ ra rb (mod256_div _ _))).trans (apply_ite _ _ _ _)
  · exact (congrArg Host.Outcome.next (s.aluDivide_eq _ _ ra rb (mod256_mod _ _))).trans (apply_ite _ _ _ _)

/-- Settles O17: the words' and, or and xor, bit by bit. -/
theorem bitwiseResult : Obligations.BitwiseResult := by
  intro ra rb s bitwise
  refine ⟨⟨rfl, s.x.get ra &&& s.x.get rb, fun k _ => BitVec.getLsbD_and, ?_⟩,
    ⟨rfl, s.x.get ra ||| s.x.get rb, fun k _ => BitVec.getLsbD_or, ?_⟩,
    ⟨rfl, s.x.get ra ^^^ s.x.get rb, fun k _ => BitVec.getLsbD_xor, ?_⟩⟩ <;>
    exact congrArg Host.Outcome.next (s.aluBinary_eq _ _ ra rb rfl)

/-- Settles O18: a shift left multiplies and a shift right divides by a power of 2; an amount that reaches the word's width
shifts every bit out. -/
theorem shiftResult : Obligations.ShiftResult := by
  intro ra rb s x y written
  have hshl {v : Nat} (hv : mod256 v = s.x.get ra <<< y) : exec (.shl ra.toByte rb.toByte) s = written v :=
    congrArg Host.Outcome.next (s.aluBinary_eq _ _ ra rb hv)
  have hshr {v : Nat} (hv : mod256 v = s.x.get ra >>> y) : exec (.shr ra.toByte rb.toByte) s = written v :=
    congrArg Host.Outcome.next (s.aluBinary_eq _ _ ra rb hv)
  refine ⟨⟨rfl, hshl (mod256_shiftLeft _ y)⟩, ⟨rfl, hshr (mod256_shiftRight _ y)⟩, fun hwidth => ⟨?_, ?_⟩⟩
  · exact hshl (BitVec.shiftLeft_eq_zero hwidth).symm
  · exact hshr (BitVec.ushiftRight_eq_zero hwidth).symm

/-- Settles O19: `mod256` carries the three operations on integers to those on words. -/
theorem unaryResult : Obligations.UnaryResult := by
  intro ra s x written
  have hx : mod256 x = s.x.get ra := mod256_toNat _
  refine ⟨⟨rfl, ?_⟩, ⟨rfl, ?_⟩, ⟨rfl, ?_⟩⟩
  · exact congrArg Host.Outcome.next (s.aluUnary_eq _ _ ra (by rw [mod256_add, hx]; rfl))
  · exact congrArg Host.Outcome.next (s.aluUnary_eq _ _ ra (by rw [mod256_sub, hx]; rfl))
  · exact congrArg Host.Outcome.next (s.aluUnary_eq _ _ ra (mod256_not _))

/-! ### Compare -/

section
variable (x y : Byte)

theorem compareFlags_e_iff : (compareFlags x y).e = true ↔ x.toNat = y.toNat :=
  decide_eq_true_iff.trans BitVec.toNat_inj.symm

theorem compareFlags_g_iff : (compareFlags x y).g = true ↔ x.toNat > y.toNat := decide_eq_true_iff

theorem compareFlags_l_iff : (compareFlags x y).l = true ↔ x.toNat < y.toNat := decide_eq_true_iff

/-- Exactly one flag of a comparison is set, as exactly one of the three orders holds. -/
theorem compareFlags_mem :
    compareFlags x y ∈ [⟨true, false, false⟩, ⟨false, true, false⟩, (⟨false, false, true⟩ : Flags)] := by
  rcases Nat.lt_trichotomy x.toNat y.toNat with h | h | h
  · have hne : x ≠ y := fun hxy => absurd (congrArg BitVec.toNat hxy) h.ne
    simp [compareFlags, h, h.le, hne]
  · obtain rfl := BitVec.eq_of_toNat_eq h
    simp [compareFlags]
  · have hne : x ≠ y := fun hxy => absurd (congrArg BitVec.toNat hxy) h.ne'
    simp [compareFlags, h, h.le, hne]

end

/-- Settles O20: the flags CMP writes are those of the unsigned comparison. -/
theorem compareResult : Obligations.CompareResult := by
  intro ra rb s x y
  refine ⟨rfl, compareFlags (s.x.get ra) (s.x.get rb), ?_, compareFlags_e_iff _ _, compareFlags_g_iff _ _,
    compareFlags_l_iff _ _, compareFlags_mem _ _⟩
  exact congrArg Host.Outcome.next (s.withRegs_toByte _ ra rb _)

end Machine

end Sys2Proof
end

section
/-! Control flow's results (42_control_flow.md R160 to R169): the next state of a conditional jump, of a call and of a
return, written as the spec writes them. -/

namespace Sys2Proof

/-! ### SP decremented and incremented, as the spec writes them -/

theorem mod256_toNat_sub_one (x : Byte) : mod256 (x.toNat - 1) = x - 1#8 := by
  rw [mod256_sub, mod256_toNat]
  rfl

theorem mod256_toNat_add_one (x : Byte) : mod256 (x.toNat + 1) = x + 1#8 := by
  rw [mod256_add, mod256_toNat]
  rfl

namespace Machine

/-! ### Jumps -/

/-- Settles O25: the register operand is valid, so the jump is made. -/
theorem jumpResult : Obligations.JumpResult := by
  intro ra s
  exact ⟨rfl, congrArg Host.Outcome.next (s.withReg_toByte _ ra _)⟩

/-- Both outcomes of a conditional jump whose condition on FL says `taken`. -/
theorem State.next_jumpIf_of_iff (s : State) (i : Instr) (op : Byte) (ra : Reg) {c : Flags → Bool} {taken : Prop}
    (hc : c s.fl = true ↔ taken) :
    (taken → (.next (s.jumpIf i ra.toByte c op) : Result) = .next { s with pc := (s.x.get ra).toNat })
      ∧ (¬taken → (.next (s.jumpIf i ra.toByte c op) : Result) = .next { s with pc := s.pc + i.size }) := by
  rw [s.jumpIf_toByte]
  refine ⟨fun h => ?_, fun h => ?_⟩
  · rw [if_pos (hc.mpr h)]
    rfl
  · rw [if_neg (mt hc.mp h)]
    rfl

theorem Flags.ne_iff (f : Flags) : f.ne = true ↔ f.e = false := by
  rw [Flags.ne, Bool.not_eq_true']

theorem Flags.le_iff (f : Flags) : f.le = true ↔ f.l = true ∨ f.e = true := Bool.or_eq_true_iff

theorem Flags.ge_iff (f : Flags) : f.ge = true ↔ f.g = true ∨ f.e = true := Bool.or_eq_true_iff

/-- After a comparison JLE is the complement of JGT. -/
theorem compareFlags_le_iff (x y : Byte) : (compareFlags x y).le = true ↔ ¬(compareFlags x y).g = true := by
  rw [Flags.le_iff, compareFlags_l_iff, compareFlags_e_iff, compareFlags_g_iff]
  omega

/-- After a comparison JGE is the complement of JLT. -/
theorem compareFlags_ge_iff (x y : Byte) : (compareFlags x y).ge = true ↔ ¬(compareFlags x y).l = true := by
  rw [Flags.ge_iff, compareFlags_g_iff, compareFlags_e_iff, compareFlags_l_iff]
  omega

theorem fl_of_exec_cmp {ra rb : Reg} {s t : State} (h : exec (.cmp ra.toByte rb.toByte) s = .next t) :
    t.fl = compareFlags (s.x.get ra) (s.x.get rb) := by
  obtain rfl := Host.Outcome.next.inj h
  rw [s.withRegs_toByte]
  rfl

/-- Settles O26: each jump tests its own condition on FL, and a CMP leaves flags that make JLE's and JGE's the complements
of JGT's and JLT's. -/
theorem conditionalJumpResults : Obligations.ConditionalJumpResults := by
  intro ra s jumps
  refine ⟨⟨rfl, s.next_jumpIf_of_iff _ _ ra Iff.rfl⟩, ⟨rfl, s.next_jumpIf_of_iff _ _ ra s.fl.ne_iff⟩,
    ⟨rfl, s.next_jumpIf_of_iff _ _ ra Iff.rfl⟩, ⟨rfl, s.next_jumpIf_of_iff _ _ ra Iff.rfl⟩,
    ⟨rfl, s.next_jumpIf_of_iff _ _ ra s.fl.le_iff⟩, ⟨rfl, s.next_jumpIf_of_iff _ _ ra s.fl.ge_iff⟩,
    fun rc rd u hcmp => ?_⟩
  have hfl := fl_of_exec_cmp hcmp
  exact ⟨⟨rfl, s.next_jumpIf_of_iff _ _ ra (hfl ▸ compareFlags_le_iff _ _)⟩,
    ⟨rfl, s.next_jumpIf_of_iff _ _ ra (hfl ▸ compareFlags_ge_iff _ _)⟩⟩

/-! ### Calls and returns -/

theorem State.returnByte_eq_mod256 (s : State) : s.returnByte = mod256 (s.pc + 2) := (mod256_natCast (s.pc + 2)).symm

/-- Settles O27: CALL pushes the return byte and then reads its register, which for R7 is the SP just decremented. -/
theorem callResult : Obligations.CallResult := by
  intro ra s sp m
  have hsp : sp = s.x.get .r7 - 1#8 := mod256_toNat_sub_one _
  have hm : m = (s.push fun _ => s.returnByte).mem := by rw [State.push_mem, s.returnByte_eq_mod256, ← hsp]
  have hpc : ((s.x.set .r7 sp).get ra).toNat = if ra = .r7 then sp.toNat else (s.x.get ra).toNat := by
    rw [Regs.get_set, apply_ite BitVec.toNat]
  refine ⟨rfl, ?_, fun hwf => ?_⟩
  · rw [← hpc, hm, hsp]
    exact congrArg Host.Outcome.next (s.withReg_toByte _ ra _)
  · rw [Memory.read?_of_lt sp.isLt, Memory.byteAt_put_self hwf.1]

/-- Settles O28: RET is a pop into the pc. -/
theorem returnResult : Obligations.ReturnResult := by
  intro s
  refine ⟨rfl, ?_⟩
  rw [mod256_toNat_add_one]
  exact congrArg Host.Outcome.next s.popPc_eq

end Machine

end Sys2Proof
end

section
/-! The stack's and interrupt bookkeeping's results (43_stack_interrupt.md R191 to R197): the next state of PUSH, POP,
INT and IRET, written as the spec writes them. -/

namespace Sys2Proof

/-! ### SP moved up by any amount, as the spec writes it -/

theorem mod256_toNat_add (x : Byte) (n : Nat) : mod256 (x.toNat + n) = x + BitVec.ofNat 8 n := by
  rw [mod256_add, mod256_toNat, mod256_natCast]

theorem toNat_add_ofNat (x : Byte) (n : Nat) : (x + BitVec.ofNat 8 n).toNat = (x.toNat + n) % 256 := by
  rw [BitVec.toNat_add, BitVec.toNat_ofNat, Nat.add_mod_mod]

namespace Machine

/-! ### Return from interrupt -/

section
variable {t : State} {popped : Byte} {x : Regs} (hpopped : t.mem.byteAt (t.x.get .r7).toNat = popped)
  (hx : t.x.set .r7 (t.x.get .r7 + 1#8) = x)
include hpopped hx

theorem State.popFlags_of_byteAt : t.popFlags = { t with x := x, fl := Flags.unpack popped } := by
  subst hpopped hx
  rfl

theorem State.popPc_of_byteAt : t.popPc = { t with x := x, pc := popped.toNat } := by
  subst hpopped hx
  exact t.popPc_eq

end

/-- Settles O37: with `n` bytes popped, the next pop reads `top n` and leaves SP where `n + 1` pops do. R6 to R0 take
the first seven bytes, then FL the next by its parameter, then the pc. -/
theorem iretResult : Obligations.IretResult := by
  intro s top restored
  have hsp (n : Nat) : (restored n).r7 = s.x.r7 + BitVec.ofNat 8 n := mod256_toNat_add s.x.r7 n
  have htop (n : Nat) : top n = s.mem.byteAt (s.x.r7 + BitVec.ofNat 8 n).toNat :=
    congrArg s.mem.byteAt (toNat_add_ofNat s.x.r7 n).symm
  have hread (n : Nat) : s.mem.byteAt (restored n).r7.toNat = top n := by rw [hsp, htop]
  have hnext (n : Nat) : (restored n).set .r7 ((restored n).r7 + 1#8) = restored (n + 1) := by
    have hadd : (restored n).r7 + 1#8 = (restored (n + 1)).r7 := by
      rw [hsp, hsp, BitVec.ofNat_add, BitVec.add_assoc]
    exact congrArg ((restored n).set .r7) hadd
  have hregs : restoreOrder.foldl State.popReg s = { s with x := restored 7 } := by
    simp [s.restoreRegs_eq, restored, htop, mod256_toNat_add, Regs.get]
  refine ⟨rfl, ?_, ?_, rfl⟩
  · calc s.returnFromInterrupt false
      _ = State.popPc { s with x := restored 7 } := congrArg State.popPc hregs
      _ = _ := State.popPc_of_byteAt (hread 7) (hnext 7)
  · calc s.returnFromInterrupt true
      _ = (State.popFlags { s with x := restored 7 }).popPc := congrArg (fun t => t.popFlags.popPc) hregs
      _ = State.popPc { s with x := restored 8, fl := Flags.unpack (top 7) } :=
        congrArg State.popPc (State.popFlags_of_byteAt (hread 7) (hnext 7))
      _ = _ := State.popPc_of_byteAt (hread 8) (hnext 8)

/-! ### PUSH and POP -/

/-- Settles O31: PUSH reads its register from the state with SP already decremented. -/
theorem pushResult : Obligations.PushResult := by
  intro ra s sp v m
  have hsp : sp = s.x.get .r7 - 1#8 := mod256_toNat_sub_one _
  have hm : m = (s.push fun t => t.x.get ra).mem := by
    rw [State.push_mem, State.decSp_x, Regs.get_set, ← hsp]
  refine ⟨rfl, ?_, fun hwf => ?_⟩
  · rw [hm, hsp]
    exact congrArg Host.Outcome.next (s.withReg_toByte _ ra _)
  · rw [Memory.read?_of_lt sp.isLt, Memory.byteAt_put_self hwf.1]

/-- Settles O32: a pop into R7 increments the byte just popped, a pop into any other register the SP before it. -/
theorem popResult : Obligations.PopResult := by
  intro ra s popped
  have hx : (s.popReg ra).x = if ra = .r7 then s.x.set .r7 (mod256 (popped.toNat + 1))
      else (s.x.set ra popped).set .r7 (mod256 ((s.x.get .r7).toNat + 1)) := by
    rw [mod256_toNat_add_one, mod256_toNat_add_one]
    split
    · next h => rw [h, s.popReg_r7, State.setReg_x]
    · next h => rw [s.popReg_ne h, State.setReg_x, State.setReg_x]
  rw [← hx]
  exact ⟨rfl, congrArg Host.Outcome.next (s.withReg_toByte _ ra _)⟩

/-! ### INT -/

/-- The default INT_RECORD is the bit-set of R194: the number's bit is set beside those of IS, if IS has that bit. -/
theorem intRecord_getLsbD (is n : Byte) {k : Nat} (hk : k < 8) :
    (Config.intRecord is n).getLsbD k = (is.getLsbD k || decide (k = n.toNat)) := by
  unfold Config.intRecord
  split
  · next h =>
    have hbit : (1#8 <<< n.toNat).getLsbD k = decide (n.toNat = k) := by
      rw [← BitVec.twoPow, BitVec.getLsbD_twoPow, decide_eq_true h, Bool.true_and]
    rw [BitVec.getLsbD_or, hbit, decide_eq_decide.mpr eq_comm]
  · next h =>
    have hne : k ≠ n.toNat := by omega
    rw [decide_eq_false hne, Bool.or_false]

theorem exec_int_toByte (r : Reg) (s : State) :
    exec (.int r.toByte) s = .next { s.recordInterrupt Config.intRecord r with pc := s.pc + 2 } :=
  congrArg Host.Outcome.next (s.withReg_toByte _ r _)

/-- Settles O35: INT is the default INT_RECORD applied to IS. -/
theorem interruptRecordsInStatus : Obligations.InterruptRecordsInStatus := by
  intro ra s n
  exact ⟨rfl, Config.intRecord (s.x.get .r6) (s.x.get ra), exec_int_toByte ra s, fun k hk => intRecord_getLsbD _ _ hk⟩

/-- Settles O36: INT_RECORD's result is written to R6 and no other field or register is. -/
theorem interruptRecordIsParametric : Obligations.InterruptRecordIsParametric := by
  refine ⟨fun record r q s => ⟨?_, rfl⟩, fun is n k hk => intRecord_getLsbD is n hk, exec_int_toByte⟩
  rw [State.recordInterrupt_x, Regs.get_set]

end Machine

end Sys2Proof
end

section
/-! The results of data movement, output, NOP and HLT (44_data_movement.md R211 to R222): with operands that name registers
each instruction runs its effect, which is the next state the spec writes. -/

namespace Sys2Proof.Machine

/-! ### Data movement -/

/-- Settles O40: the register operand is valid and the literal needs no check. -/
theorem loadImmediateResult : Obligations.LoadImmediateResult := by
  intro ra imm s
  exact ⟨rfl, congrArg Host.Outcome.next (s.withReg_toByte _ ra _)⟩

/-- Settles O41: an address held by a register is below 256, so the read is of the byte there. -/
theorem loadResult : Obligations.LoadResult := by
  intro ra rb s
  exact ⟨rfl, s.mem.byteAt (s.x.get rb).toNat, Memory.read?_of_lt (s.x.get rb).isLt,
    congrArg Host.Outcome.next (s.withRegs_toByte _ ra rb _)⟩

/-- In canonical form a byte put at an address that a byte holds is read back. -/
theorem Memory.read?_put_self {m : Memory} (hm : m.wf) (a v : Byte) : (m.put a.toNat v).read? a.toNat = some v := by
  rw [Memory.read?_of_lt a.isLt, Memory.byteAt_put_self hm.1]

/-- Settles O42: ST takes its address from the first register and its value from the second. -/
theorem storeResult : Obligations.StoreResult := by
  intro ra rb s m
  exact ⟨rfl, congrArg Host.Outcome.next (s.withRegs_toByte _ ra rb _), fun hwf => Memory.read?_put_self hwf _ _⟩

/-! ### Output -/

/-- An instruction that is neither PRN nor PRA leaves the output as it was. -/
theorem exec_out_eq {i : Instr} {s t : State} (hi : ¬∃ a, i = .prn a ∨ i = .pra a) (h : exec i s = .next t) :
    t.out = s.out := by
  obtain ⟨-, hgrows⟩ := outputOnlyGrowsUnread
  obtain ⟨added, hout, hkind, -⟩ := hgrows i s t h
  have hnone : added = [] := of_not_not (mt hkind hi)
  rw [hout, hnone, List.append_nil]

/-- Settles O43: the register operand is valid, so PRN and PRA emit; no other instruction does. -/
theorem outputResult : Obligations.OutputResult := by
  refine ⟨fun ra s => ⟨?_, ?_⟩, fun i s t hprn hpra => exec_out_eq ?_⟩
  · exact congrArg Host.Outcome.next (s.output_toByte _ _ ra .prn)
  · exact congrArg Host.Outcome.next (s.output_toByte _ _ ra .pra)
  · rintro ⟨a, hi | hi⟩
    · exact hprn a hi
    · exact hpra a hi

/-! ### NOP and HLT -/

/-- Settles O44: HLT's next state is HALTED, and a step exists only while RUNNING. -/
theorem nopHltResult : Obligations.NopHltResult := by
  intro s
  obtain ⟨-, hnostep⟩ := stepExistsOnlyWhileRunning s.halt
  exact ⟨rfl, rfl, rfl, s.halt, rfl, rfl, rfl, hnostep s.halt_run⟩

end Sys2Proof.Machine
end

section
/-! The causes of the three exceptions (60_exceptions.md R243 to R245): a fetch fails for want of a byte or of a table
entry, and an instruction that is executed fails by a bad operand or by a divisor of 0. -/

namespace Sys2Proof

/-! ### Decoding that fails -/

/-- An opcode byte that no row has is a miss. -/
theorem lookupOpcode_eq_none {op : Byte} (h : op ∉ instructionTable.map TableRow.opcode) : lookupOpcode op = none :=
  List.find?_eq_none.mpr fun row hrow heq => h (List.mem_map.mpr ⟨row, hrow, eq_of_beq heq⟩)

theorem Format.operands_le_two (f : Format) : f.operands ≤ 2 := by
  cases f <;> simp [Format.operands]

/-- A format fails only for want of operand bytes, and names the first that is missing. -/
theorem Format.decode_eq_error_iff {op : Byte} {f : Format} {rest : List Byte} {e : DecodeError} :
    f.decode op rest = .error e ↔ rest.length < f.operands ∧ .noOperand op (rest.length + 1) = e := by
  cases f with
  | f0 i => simp [Format.decode, Format.operands]
  | f1r make =>
    match rest with
    | [] | _ :: _ => simp [Format.decode, Format.operands]
  | f2rr make | f2ri make =>
    match rest with
    | [] | [_] | _ :: _ :: _ => simp [Format.decode, Format.operands]

namespace Machine

variable {i : Instr} {s t : State} {op : Byte} {r : FaultRecord}

/-! ### The bytes that exist -/

theorem Memory.read?_eq_none_iff {m : Memory} {a : Nat} : m.read? a = none ↔ 256 ≤ a :=
  ⟨fun h => Nat.le_of_not_lt fun hlt => by simp [Memory.read?_of_lt hlt] at h, Memory.read?_of_ge⟩

/-- As many bytes are collected as are asked for and exist. -/
theorem Memory.bytesFrom_length (m : Memory) (a n : Nat) : (m.bytesFrom a n).length = min n (256 - a) := by
  induction n generalizing a with
  | zero => simp [Memory.bytesFrom]
  | succ n ih =>
    rw [Memory.bytesFrom_succ]
    split
    · rw [List.length_cons, ih]
      omega
    · rw [List.length_nil]
      omega

/-! ### A fetch that fails -/

/-- An exception of fetch names the byte at the pc, if there is one. -/
theorem opcode_of_fetch_error {e : DecodeError} (h : fetch s = .error e) : e.opcode = s.mem.read? s.pc :=
  (opcode_of_decode_error h).trans (s.mem.head?_bytesFrom_succ s.pc 2)

/-- The opcode `op` stands at the pc, is in the table, and one of its operand bytes would be at address 256 (R244). -/
def State.OperandMissing (s : State) (op : Byte) : Prop :=
  s.mem.read? s.pc = some op ∧ ∃ row, lookupOpcode op = some row
    ∧ ((1 ≤ row.format.operands ∧ s.pc + 1 = 256) ∨ (2 ≤ row.format.operands ∧ s.pc + 2 = 256))

/-- The fetch of a listed opcode fails where its format has more operands than bytes follow, and those are the bytes up to
address 255. -/
theorem fetch_eq_noOperand_iff_of_lookup {row : TableRow} {k : Nat} (hop : s.mem.read? s.pc = some op)
    (hrow : lookupOpcode op = some row) :
    fetch s = .error (.noOperand op k) ↔ s.OperandMissing op ∧ s.pc + k = 256 := by
  have hpc : ¬256 ≤ s.pc := fun hge => by simp [Memory.read?_of_ge hge] at hop
  have htwo := row.format.operands_le_two
  simp only [fetch_of_lookup_some hop hrow, Format.decode_eq_error_iff, Memory.bytesFrom_length,
    DecodeError.noOperand.injEq, true_and, State.OperandMissing, hop, hrow, Option.some.injEq, exists_eq_left']
  omega

/-- A fetch fails on operand byte `k` just where one is missing, and the missing one is at 256. -/
theorem fetch_eq_noOperand_iff {k : Nat} :
    fetch s = .error (.noOperand op k) ↔ s.OperandMissing op ∧ s.pc + k = 256 := by
  constructor
  · intro h
    have hop : s.mem.read? s.pc = some op := (opcode_of_fetch_error h).symm
    cases hrow : lookupOpcode op with
    | none => simp [fetch_of_lookup_none hop hrow] at h
    | some row => exact (fetch_eq_noOperand_iff_of_lookup hop hrow).mp h
  · intro h
    have ⟨⟨hop, row, hrow, _⟩, _⟩ := h
    exact (fetch_eq_noOperand_iff_of_lookup hop hrow).mpr h

/-- With an operand byte missing, the step faults on the address 256. -/
theorem step_of_operandMissing (hrun : s.run = .running) (h : s.OperandMissing op) :
    step s = .next (s.takeException .addressingFault (some op) (.address 256)) := by
  obtain ⟨k, hk⟩ : ∃ k, s.pc + k = 256 := by
    obtain ⟨-, -, -, ⟨-, h1⟩ | ⟨-, h2⟩⟩ := h
    · exact ⟨1, h1⟩
    · exact ⟨2, h2⟩
  rw [step_of_fetch_error hrun (fetch_eq_noOperand_iff.mpr ⟨h, hk⟩), State.takeFetchException, hk]

/-- An AddressingFault of fetch is of the opcode at the pc 256 or of a missing operand byte. -/
theorem addressingFault_of_fetch_error {e : DecodeError} (hpc : s.pc ≤ 256) (h : fetch s = .error e)
    (hwhy : (s.takeFetchException e).why = .fault r) (hkind : r.kind = .addressingFault) :
    s.pc = 256 ∨ ∃ op, s.OperandMissing op := by
  cases e with
  | noOpcode => exact Or.inl (hpc.antisymm (Memory.read?_eq_none_iff.mp (opcode_of_fetch_error h).symm))
  | unknownOpcode op => cases hwhy; cases hkind
  | noOperand op k => exact Or.inr ⟨op, (fetch_eq_noOperand_iff.mp h).1⟩

/-! ### An instruction that faults -/

/-- An instruction that halts a RUNNING CORE with a record has a bad operand or divides by 0. -/
theorem exec_fault_cases (hrun : s.run = .running) (h : exec i s = .next t) (hhalted : t.run = .halted)
    (hwhy : t.why = .fault r) :
    (r.kind = .addressingFault ∧ ∃ b, i.firstBadOperand = some b)
      ∨ (r.kind = .arithmeticError ∧ ∃ ra rb : Reg, s.x.get rb = 0#8
          ∧ (i = .div ra.toByte rb.toByte ∨ i = .mod ra.toByte rb.toByte)
          ∧ t = s.takeException .arithmeticError (some i.opcode) (.divisor rb)) := by
  cases exec_runEffect h with
  | kept hsame => simp [hsame.1, hrun] at hhalted
  | hlt _ ht => subst ht; cases hwhy
  | badOperand b hb ht => subst ht; cases hwhy; exact Or.inl ⟨rfl, b, hb⟩
  | zeroDivisor ra rb hi hzero ht => subst ht; cases hwhy; exact Or.inr ⟨rfl, ra, rb, hzero, hi, rfl⟩

/-! ### The causes -/

/-- Settles O6: the 34 bytes are the table's opcodes, so the fetch misses; an instruction has only the two other
exceptions. -/
theorem unlistedOpcodeFaults : Obligations.UnlistedOpcodeFaults := by
  refine ⟨fun s op hrun hop hunlisted => ?_, fun i s t r hrun h hhalted hwhy => ?_⟩
  · exact step_of_fetch_error hrun (fetch_of_lookup_none hop (lookupOpcode_eq_none hunlisted))
  · rcases exec_fault_cases hrun h hhalted hwhy with ⟨hkind, -⟩ | ⟨hkind, -⟩ <;> simp [hkind]

/-- Settles O11: the first two causes are the fetch's, the third is the instruction's. -/
theorem addressingFaultCauses : Obligations.AddressingFaultCauses := by
  intro s hrun hpc raised operandMissing badIndex
  refine ⟨fun h256 => ?_, fun op hmissing => step_of_operandMissing hrun hmissing, ?_, ?_⟩
  · rw [step_of_fetch_error hrun (fetch_of_read?_none (Memory.read?_eq_none_iff.mpr h256.ge)), ← h256]
    rfl
  · rintro i b ⟨⟨rest, hfetch⟩, hbad⟩
    exact (step_of_fetch_ok hrun hfetch).trans (badRegisterOperandFaults i s b hbad)
  · intro t r hstep hhalted hwhy hkind
    rcases hfetch : fetch s with e | ⟨i, rest⟩
    · rw [step_of_fetch_error hrun hfetch] at hstep
      cases hstep
      exact (addressingFault_of_fetch_error hpc hfetch hwhy hkind).imp_right Or.inl
    · rw [step_of_fetch_ok hrun hfetch] at hstep
      rcases exec_fault_cases hrun hstep hhalted hwhy with ⟨-, b, hb⟩ | ⟨hother, -⟩
      · exact Or.inr (Or.inr ⟨i, b, ⟨rest, hfetch⟩, hb⟩)
      · simp [hkind] at hother

/-- Settles O14: DIV and MOD test the divisor before they write, and no other instruction takes the exception. -/
theorem arithmeticErrorCauses : Obligations.ArithmeticErrorCauses := by
  intro s hrun raised
  refine ⟨fun ra rb hzero => ⟨?_, ?_⟩, fun i t r h hhalted hwhy hkind => ?_⟩
  · exact congrArg Host.Outcome.next (s.aluDivide_zero _ _ ra rb _ hzero)
  · exact congrArg Host.Outcome.next (s.aluDivide_zero _ _ ra rb _ hzero)
  · rcases exec_fault_cases hrun h hhalted hwhy with ⟨hother, -⟩ | ⟨-, ra, rb, hzero, hi, ht⟩
    · simp [hkind] at hother
    · obtain rfl | rfl := hi
      · exact ⟨ra, rb, hzero, Or.inl ⟨rfl, ht⟩⟩
      · exact ⟨ra, rb, hzero, Or.inr ⟨rfl, ht⟩⟩

end Machine

end Sys2Proof
end

section
/-! Encoding (30_encoding.md R70 to R80): the decoder and the encoder undo each other, the table agrees with the opcode
layout, and decoding follows every injective renaming of the table. -/

namespace Sys2Proof

/-! ### The default table -/

/-- Settles O2: the decoder reads back the encoder's bytes, instruction by instruction. -/
theorem decodeOfEncode : Obligations.DecodeOfEncode := decode_encode_append

/-- Settles O3: every row's format takes just the operand bytes that the encoder gives back. -/
theorem encodeOfDecode : Obligations.EncodeOfDecode := fun _ _ _ => encode_append_of_decode

/-- Settles O1: each word is the encoding of its instruction and a rest. -/
theorem decodeSpecWords : Obligations.DecodeSpecWords :=
  ⟨decode_encode_append (.add 2#8 3#8) [], decode_encode_append (.dec 4#8) [0xFF#8], decode_encode_append (.jle 6#8) [],
    decode_encode_append (.push 7#8) [], decode_encode_append .iret [], decode_encode_append (.ldi 1#8 200#8) [],
    decode_encode_append (.pra 2#8) []⟩

/-- Settles O5: the operand count is that of bits 7:6, and the other two fields are checked row by row. -/
theorem opcodeFieldsAgreeWithTable : Obligations.OpcodeFieldsAgreeWithTable := by
  intro op row hrow
  have halu : ∀ row ∈ instructionTable, row.alu = row.opcode.getLsbD 5 := by decide
  have hcontrol : ∀ row ∈ instructionTable, (row.opcode.getLsbD 4 = true ↔ row.opcode ∈ [0x11#8, 0x13#8, 0x50#8, 0x52#8,
      0x54#8, 0x55#8, 0x56#8, 0x57#8, 0x58#8, 0x59#8, 0x5A#8]) := by decide
  have hcount := operands_of_lookupOpcode hrow
  obtain ⟨hmem, rfl⟩ := lookupOpcode_eq_some hrow
  exact ⟨hcount, halu row hmem, hcontrol row hmem⟩

/-! ### A renamed table -/

/-- A format that finds its operand bytes does not look at the opcode byte. -/
theorem Format.decode_ok_any_opcode {op : Byte} (op' : Byte) {fmt : Format} {rest : List Byte} {r : Instr × List Byte}
    (h : fmt.decode op rest = .ok r) : fmt.decode op' rest = .ok r := by
  cases fmt with
  | f0 i => exact h
  | f1r make =>
    match rest with
    | [] => cases h
    | _ :: _ => exact h
  | f2rr make | f2ri make =>
    match rest with
    | [] | [_] => cases h
    | _ :: _ :: _ => exact h

/-- The row of an instruction's opcode makes that instruction of its operand bytes. -/
theorem exists_row_decode_operandBytes (i : Instr) (rest : List Byte) :
    ∃ row, lookupOpcode i.opcode = some row ∧ row.format.decode i.opcode (i.operandBytes ++ rest) = .ok (i, rest) := by
  obtain ⟨row, hrow, -⟩ := Laws.OpcodeListed.all i
  exact ⟨row, hrow, (decode_cons hrow _).symm.trans (decode_encode_append i rest)⟩

/-- Every row's opcode is that of an instruction. -/
theorem exists_opcode_of_mem_instructionTable {row : TableRow} (h : row ∈ instructionTable) :
    ∃ i : Instr, i.opcode = row.opcode := by
  have hencodes := instructionTable_encodesTo row h
  have hhead {i : Instr} {bs : List Byte} (hi : encode i = row.opcode :: bs) : ∃ i : Instr, i.opcode = row.opcode :=
    ⟨i, (List.cons.inj hi).1⟩
  cases hformat : row.format with
  | f0 i => rw [hformat] at hencodes; exact hhead hencodes
  | f1r make => rw [hformat] at hencodes; exact hhead (hencodes 0#8)
  | f2rr make | f2ri make => rw [hformat] at hencodes; exact hhead (hencodes 0#8 0#8)

section
variable {f : Byte → Byte}

/-- In a renamed table a renamed opcode has the row its original has. -/
theorem lookupOpcode_renamedTable (hf : Function.Injective f) (op : Byte) :
    lookupOpcode (f op) (renamedTable f) = (lookupOpcode op).map fun row => { row with opcode := f row.opcode } := by
  have hsame : ∀ row : TableRow, (f row.opcode == f op) = (row.opcode == op) := fun row => by
    rw [Bool.eq_iff_iff, beq_iff_eq, beq_iff_eq, hf.eq_iff]
  simp only [lookupOpcode, renamedTable, List.find?_map, Function.comp_def, hsame]

/-- A byte that is no instruction's renamed opcode has no row. -/
theorem lookupOpcode_renamedTable_eq_none {op : Byte} (h : ∀ i : Instr, op ≠ f i.opcode) :
    lookupOpcode op (renamedTable f) = none := by
  refine List.find?_eq_none.mpr fun row hrow heq => ?_
  obtain ⟨original, hmem, rfl⟩ := List.mem_map.mp hrow
  obtain ⟨i, hi⟩ := exists_opcode_of_mem_instructionTable hmem
  exact h i (hi ▸ (eq_of_beq heq).symm)

theorem decode_renamedTable_append (hf : Function.Injective f) (i : Instr) (rest : List Byte) :
    decode (f i.opcode :: i.operandBytes ++ rest) (renamedTable f) = .ok (i, rest) := by
  obtain ⟨row, hrow, hdecode⟩ := exists_row_decode_operandBytes i rest
  simp only [List.cons_append, decode, lookupOpcode_renamedTable hf, hrow, Option.map_some]
  exact Format.decode_ok_any_opcode _ hdecode

theorem decode_renamedTable_unknown {op : Byte} (h : ∀ i : Instr, op ≠ f i.opcode) (rest : List Byte) :
    decode (op :: rest) (renamedTable f) = .error (.unknownOpcode op) := by
  simp only [decode, lookupOpcode_renamedTable_eq_none h]

end

/-- Settles O58: the renamed table finds an instruction's row under its renamed opcode, and no other row. -/
theorem decodeUnderAnyOpcodeMap : Obligations.DecodeUnderAnyOpcodeMap := by
  intro f hf
  exact ⟨decode_renamedTable_append hf, fun op rest hop => decode_renamedTable_unknown hop rest⟩

end Sys2Proof
end

section
/-! Frames (20_memory.md R53, 10_state.md R31, 41_alu.md R120, 42_control_flow.md R160, 43_stack_interrupt.md R190,
44_data_movement.md R210): what an instruction leaves unchanged on every path, exceptions included. -/

namespace Sys2Proof

/-- The registers an instruction may write. `exec_frame` ties it to the model. -/
def Instr.WritesReg (i : Instr) (q : Reg) : Prop :=
  match i with
  | .nop | .hlt | .prn _ | .pra _ | .st _ _ | .cmp _ _ => False
  | .jmp _ | .jeq _ | .jne _ | .jgt _ | .jlt _ | .jle _ | .jge _ => False
  | .push _ | .call _ | .ret => q = .r7
  | .pop a => q = .r7 ∨ a = q.toByte
  | .int _ => q = .r6
  | .iret => True
  | .inc a | .dec a | .not a | .ldi a _ | .ld a _ => a = q.toByte
  | .add a _ | .sub a _ | .mul a _ | .div a _ | .mod a _ => a = q.toByte
  | .and a _ | .or a _ | .xor a _ | .shl a _ | .shr a _ => a = q.toByte

/-- The addresses an instruction may write. `exec_frame` ties it to the model. -/
def Instr.StoresAt (i : Instr) (s : Machine.State) (c : Byte) : Prop :=
  match i with
  | .st a _ => ∃ ra : Reg, a = ra.toByte ∧ c = s.x.get ra
  | .push _ | .call _ => c = s.pushAddr
  | _ => False

namespace Machine

/-! ### The operand forms, for any property of the next state -/

section
variable {s : State} {op a b : Byte} {P : State → Prop}

/-- What holds after a bad operand's fault and after the effect on every register holds after a register operand. -/
theorem State.withReg_of {f : Reg → State}
    (hfault : ∀ c, P (s.takeException .addressingFault (some op) (.registerIndex c)))
    (hf : ∀ r : Reg, a = r.toByte → P (f r)) : P (s.withReg op a f) := by
  rcases s.withReg_cases op a f with ⟨r, ha, heffect⟩ | ⟨-, hbad⟩
  · exact heffect ▸ hf r ha
  · exact hbad ▸ hfault a

theorem State.withRegs_of {f : Reg → Reg → State}
    (hfault : ∀ c, P (s.takeException .addressingFault (some op) (.registerIndex c)))
    (hf : ∀ ra rb : Reg, a = ra.toByte → b = rb.toByte → P (f ra rb)) : P (s.withRegs op a b f) :=
  State.withReg_of hfault fun ra ha => State.withReg_of hfault fun rb hb => hf ra rb ha hb

end

/-! ### The frame of an instruction -/

/-- `t` differs from `s` in registers, flags and memory only where `i` may write. -/
structure Frame (i : Instr) (s t : State) : Prop where
  get : ∀ q, ¬i.WritesReg q → t.x.get q = s.x.get q
  fl : t.fl = s.fl ∨ (∃ a b, i = .cmp a b) ∧ ∃ x y, t.fl = compareFlags x y
  mem : t.mem = s.mem ∨ ∃ c v : Byte, i.StoresAt s c ∧ t.mem = s.mem.put c.toNat v

namespace Frame

variable {i : Instr} {s t : State} {r : Reg}

/-- Registers, flags and memory are as they were. -/
theorem of_eq (hx : t.x = s.x) (hfl : t.fl = s.fl) (hmem : t.mem = s.mem) : Frame i s t :=
  ⟨fun q _ => congrArg (Regs.get · q) hx, Or.inl hfl, Or.inl hmem⟩

theorem takeException (k : ExceptionKind) (op : Option Byte) (d : Detail) : Frame i s (s.takeException k op d) :=
  of_eq rfl rfl rfl

/-- One register that `i` may write is written, and flags and memory are as they were. -/
theorem of_setReg (hr : i.WritesReg r) {v : Byte} (hx : t.x = s.x.set r v) (hfl : t.fl = s.fl) (hmem : t.mem = s.mem) :
    Frame i s t := by
  refine ⟨fun q hq => ?_, Or.inl hfl, Or.inl hmem⟩
  have hne : q ≠ r := fun hqr => hq (hqr ▸ hr)
  rw [hx, Regs.get_set_ne _ _ hne]

/-- A push writes SP and the byte at the decremented SP. -/
theorem of_push (hr : i.WritesReg .r7) (hstore : i.StoresAt s s.pushAddr) {v : Byte}
    (hx : t.x = s.x.set .r7 s.pushAddr) (hfl : t.fl = s.fl) (hmem : t.mem = s.mem.put s.pushAddr.toNat v) :
    Frame i s t where
  get q hq := (of_setReg (t := { t with mem := s.mem }) hr hx hfl rfl).get q hq
  fl := Or.inl hfl
  mem := Or.inr ⟨s.pushAddr, v, hstore, hmem⟩

variable {op a b : Byte}

theorem withReg {f : Reg → State} (hf : ∀ r, a = r.toByte → Frame i s (f r)) : Frame i s (s.withReg op a f) :=
  State.withReg_of (fun _ => takeException _ _ _) hf

theorem withRegs {f : Reg → Reg → State} (hf : ∀ ra rb, a = ra.toByte → b = rb.toByte → Frame i s (f ra rb)) :
    Frame i s (s.withRegs op a b f) :=
  State.withRegs_of (fun _ => takeException _ _ _) hf

/-- An ALU operation or a load writes its first operand's register. -/
theorem aluBinary {f : Byte → Byte → Byte} (hi : ∀ r, a = r.toByte → i.WritesReg r) :
    Frame i s (s.aluBinary i a b f op) :=
  withRegs fun ra _ ha _ => of_setReg (hi ra ha) rfl rfl rfl

theorem aluDivide {f : Byte → Byte → Byte} (hi : ∀ r, a = r.toByte → i.WritesReg r) :
    Frame i s (s.aluDivide i a b f op) := by
  refine withRegs fun ra _ ha _ => ?_
  split
  · exact takeException _ _ _
  · exact of_setReg (hi ra ha) rfl rfl rfl

theorem jumpIf {c : Flags → Bool} : Frame i s (s.jumpIf i a c op) := by
  refine withReg fun ra _ => ?_
  split <;> exact of_eq rfl rfl rfl

/-- A pop writes the register popped into and SP. -/
theorem of_popReg (hr : i.WritesReg r) (hsp : i.WritesReg .r7) (hx : t.x = (s.popReg r).x) (hfl : t.fl = s.fl)
    (hmem : t.mem = s.mem) : Frame i s t := by
  refine ⟨fun q hq => ?_, Or.inl hfl, Or.inl hmem⟩
  have hne : q ≠ r := fun hqr => hq (hqr ▸ hr)
  have hne7 : q ≠ .r7 := fun hqr => hq (hqr ▸ hsp)
  rw [hx, State.popReg, State.incSp, State.setReg_x, Regs.get_set_ne _ _ hne7, State.setReg_x, Regs.get_set_ne _ _ hne]

variable {c : Nat} (h : Frame i s t)
include h

/-- No instruction but CMP writes FL. -/
theorem fl_eq (hi : ∀ a b, i ≠ .cmp a b) : t.fl = s.fl := by
  rcases h.fl with hfl | ⟨⟨a, b, hcmp⟩, -⟩
  · exact hfl
  · exact absurd hcmp (hi a b)

/-- A byte at no address that `i` may write reads as before. -/
theorem read?_eq (hc : ∀ d, i.StoresAt s d → c ≠ d.toNat) : t.mem.read? c = s.mem.read? c := by
  rcases h.mem with hmem | ⟨d, v, hd, hmem⟩
  · rw [hmem]
  · rw [hmem, Memory.read?, Memory.read?, Memory.byteAt_put_ne v (hc d hd)]

end Frame

/-- Every instruction writes registers, flags and memory only where it may. -/
theorem exec_frame {i : Instr} {s t : State} (h : exec i s = .next t) : Frame i s t := by
  cases i with
  | nop | hlt => cases h; exact .of_eq rfl rfl rfl
  | ret => cases h; exact .of_setReg rfl rfl rfl rfl
  | iret =>
    cases h
    obtain ⟨hmem, -, -, -, hfl⟩ := s.returnFromInterrupt_frame Config.iretRestoresFl
    exact ⟨fun _ hq => absurd trivial hq, Or.inl (hfl rfl), Or.inl hmem⟩
  | push a | call a => cases h; exact .withReg fun _ _ => .of_push rfl rfl rfl rfl rfl
  | pop a => cases h; exact .withReg fun _ ha => .of_popReg (Or.inr ha) (Or.inl rfl) rfl rfl rfl
  | int a => cases h; exact .withReg fun _ _ => .of_setReg rfl rfl rfl rfl
  | prn a | pra a | jmp a => cases h; exact .withReg fun _ _ => .of_eq rfl rfl rfl
  | jeq a | jne a | jgt a | jlt a | jle a | jge a => cases h; exact .jumpIf
  | inc a | dec a | not a | ldi a imm => cases h; exact .withReg fun _ ha => .of_setReg ha rfl rfl rfl
  | ld a b => cases h; exact .withRegs fun _ _ ha _ => .of_setReg ha rfl rfl rfl
  | st a b =>
    cases h
    exact .withRegs fun ra _ ha _ => ⟨fun _ _ => rfl, Or.inl rfl, Or.inr ⟨_, _, ⟨ra, ha, rfl⟩, rfl⟩⟩
  | cmp a b =>
    cases h
    exact .withRegs fun _ _ _ _ => ⟨fun _ _ => rfl, Or.inr ⟨⟨a, b, rfl⟩, _, _, rfl⟩, Or.inl rfl⟩
  | div a b | mod a b => cases h; exact .aluDivide fun _ ha => ha
  | add a b | sub a b | mul a b | and a b | or a b | xor a b | shl a b | shr a b =>
    cases h; exact .aluBinary fun _ ha => ha

/-! ### The frames of the families -/

/-- Settles O24: the frame's clause about FL. -/
theorem onlyCompareWritesFlags : Obligations.OnlyCompareWritesFlags :=
  fun _ _ _ hi h => (exec_frame h).fl_eq hi

/-- Settles O52: the frame's clause about memory, with the addresses that ST, PUSH and CALL may write. -/
theorem onlyStoresWriteMemory : Obligations.OnlyStoresWriteMemory := by
  intro i s t c h hc
  refine (exec_frame h).read?_eq fun d hd => ?_
  cases i with
  | st a b =>
    obtain ⟨ra, ha, rfl⟩ := hd
    exact hc ra ha
  | push a | call a => exact hd ▸ hc
  | _ => exact hd.elim

/-! What the instructions of each family may write, read off their constructors. -/

section
variable {a b : Byte} {i : Instr}

theorem alu_writes (hi : i ∈ [.add a b, .sub a b, .mul a b, .div a b, .mod a b, .and a b, .or a b, .xor a b, .shl a b,
      .shr a b, .inc a, .dec a, .not a, .cmp a b]) :
    (∀ q, i = .cmp a b ∨ a ≠ q.toByte → ¬i.WritesReg q) ∧ (i ≠ .cmp a b → ∀ c d, i ≠ .cmp c d)
      ∧ (∀ s c, ¬i.StoresAt s c) ∧ ¬∃ c, i = .prn c ∨ i = .pra c := by
  simp only [List.mem_cons, List.not_mem_nil, or_false] at hi
  rcases hi with rfl | rfl | rfl | rfl | rfl | rfl | rfl | rfl | rfl | rfl | rfl | rfl | rfl | rfl <;>
    simp [Instr.WritesReg, Instr.StoresAt]

theorem jump_writes (hi : i ∈ [.jmp a, .jeq a, .jne a, .jgt a, .jlt a, .jle a, .jge a]) :
    (∀ q, ¬i.WritesReg q) ∧ (∀ c d, i ≠ .cmp c d) ∧ (∀ s c, ¬i.StoresAt s c) ∧ ¬∃ c, i = .prn c ∨ i = .pra c := by
  simp only [List.mem_cons, List.not_mem_nil, or_false] at hi
  rcases hi with rfl | rfl | rfl | rfl | rfl | rfl | rfl <;> simp [Instr.WritesReg, Instr.StoresAt]

theorem stack_writes (hi : i ∈ [.push a, .pop a, .call a, .ret, .iret]) :
    (∀ q, i ≠ .iret → q ≠ .r7 → (i = .pop a → a ≠ q.toByte) → ¬i.WritesReg q) ∧ (∀ c d, i ≠ .cmp c d)
      ∧ (∀ s c, i.StoresAt s c → (i = .push a ∨ i = .call a) ∧ c = s.pushAddr) ∧ ¬∃ c, i = .prn c ∨ i = .pra c := by
  simp only [List.mem_cons, List.not_mem_nil, or_false] at hi
  rcases hi with rfl | rfl | rfl | rfl | rfl <;> simp +contextual [Instr.WritesReg, Instr.StoresAt]

theorem data_writes (hi : i ∈ [.ldi a b, .ld a b, .st a b, .prn a, .pra a, .int a, .nop, .hlt]) :
    (∀ q, (i = .ldi a b ∨ i = .ld a b → a ≠ q.toByte) → (i = .int a → q ≠ .r6) → ¬i.WritesReg q) ∧ (∀ c d, i ≠ .cmp c d)
      ∧ (∀ s c, i.StoresAt s c → i = .st a b ∧ ∃ ra : Reg, a = ra.toByte ∧ c = s.x.get ra)
      ∧ (i ≠ .prn a → i ≠ .pra a → ¬∃ c, i = .prn c ∨ i = .pra c) := by
  simp only [List.mem_cons, List.not_mem_nil, or_false] at hi
  rcases hi with rfl | rfl | rfl | rfl | rfl | rfl | rfl | rfl <;> simp +contextual [Instr.WritesReg, Instr.StoresAt]

end

/-- Settles O22: an ALU instruction may write its first operand's register or, for CMP, the flags. -/
theorem aluFrame : Obligations.AluFrame := by
  intro a b s t i hi h
  obtain ⟨hregs, hflags, hstores, hout⟩ := alu_writes hi
  have hframe := exec_frame h
  exact ⟨fun q hq => hframe.get q (hregs q hq), fun hne => hframe.fl_eq (hflags hne),
    fun c => hframe.read?_eq fun d hd => absurd hd (hstores s d), exec_out_eq hout h⟩

/-- Settles O30: a jump may write nothing of registers, flags, memory and output. -/
theorem jumpFrame : Obligations.JumpFrame := by
  intro a s t i hi h
  obtain ⟨hregs, hflags, hstores, hout⟩ := jump_writes hi
  have hframe := exec_frame h
  exact ⟨fun q => hframe.get q (hregs q), hframe.fl_eq hflags,
    fun c => hframe.read?_eq fun d hd => absurd hd (hstores s d), exec_out_eq hout h⟩

/-- Settles O34: the stack instructions may write SP, POP its operand's register, PUSH and CALL the byte pushed. -/
theorem stackFrame : Obligations.StackFrame := by
  intro a s t i hi h
  obtain ⟨hregs, hflags, hstores, hout⟩ := stack_writes hi
  have hframe := exec_frame h
  refine ⟨fun q hiret hsp hpop => hframe.get q (hregs q hiret hsp hpop), hframe.fl_eq hflags, exec_out_eq hout h,
    fun c hc => hframe.read?_eq fun d hd => ?_⟩
  obtain ⟨hpushes, rfl⟩ := hstores s d hd
  exact hc hpushes

/-- Settles O45: LDI and LD may write their destination, INT IS, ST the byte its first register addresses. -/
theorem dataFrame : Obligations.DataFrame := by
  intro a b s t i hi h
  obtain ⟨hregs, hflags, hstores, hout⟩ := data_writes hi
  have hframe := exec_frame h
  refine ⟨fun q hload hint => hframe.get q (hregs q hload hint), hframe.fl_eq hflags,
    fun c hc => hframe.read?_eq fun d hd => ?_, fun hprn hpra => exec_out_eq (hout hprn hpra) h⟩
  obtain ⟨hst, ra, ha, rfl⟩ := hstores s d hd
  exact hc hst ra ha

end Machine

end Sys2Proof
end

section
/-! The invariants of the CORE (10_state.md R30, R31, R34, R39): they hold at reset and every step keeps them. -/

namespace Sys2Proof.Machine

variable {i : Instr} {s t : State}

/-! ### Reset -/

/-- Settles O49: memory is empty, the pc 0, the CORE RUNNING and every flag clear. -/
theorem resetMeetsInvariants : Obligations.ResetMeetsInvariants :=
  ⟨⟨State.reset_mem_wf, Nat.zero_le _, rfl⟩, by decide⟩

/-- Settles O57: reset writes the two parameters to the registers and no other field. -/
theorem resetTakesParameters : Obligations.ResetTakesParameters := by
  refine fun p => ⟨fun r => ?_, rfl⟩
  cases r <;> rfl

/-! ### A step and its parts -/

/-- A step is that of a RUNNING CORE: it fails to fetch, or it executes the instruction fetched. -/
theorem step_cases (h : step s = .next t) :
    s.run = .running ∧ ((∃ e, fetch s = .error e ∧ t = s.takeFetchException e)
      ∨ ∃ i rest, fetch s = .ok (i, rest) ∧ exec i s = .next t) := by
  cases hrun : s.run with
  | halted => simp [step_of_halted hrun] at h
  | running =>
    refine ⟨rfl, ?_⟩
    rcases hfetch : fetch s with e | ⟨i, rest⟩
    · rw [step_of_fetch_error hrun hfetch] at h
      exact Or.inl ⟨e, rfl, (Host.Outcome.next.inj h).symm⟩
    · exact Or.inr ⟨i, rest, rfl, (step_of_fetch_ok hrun hfetch).symm.trans h⟩

/-- An exception of fetch is an exception that keeps the pc. -/
theorem State.takeFetchException_eq (s : State) (e : DecodeError) :
    ∃ k op d, s.takeFetchException e = s.takeException k op d ∧ pcAfterException k s.pc = s.pc := by
  cases e <;> exact ⟨_, _, _, rfl, rfl⟩

/-! ### Flags -/

/-- Of a comparison's flags exactly one is set, so at most one. -/
theorem compareFlags_exclusive (x y : Byte) : (compareFlags x y).exclusive := by
  have hall : ∀ f ∈ [⟨true, false, false⟩, ⟨false, true, false⟩, (⟨false, false, true⟩ : Flags)], f.exclusive := by
    decide
  exact hall _ (compareFlags_mem x y)

/-- Settles O51: FL is carried through or written by a comparison. -/
theorem stepKeepsFlagsExclusive : Obligations.StepKeepsFlagsExclusive := by
  intro s t hs h
  obtain ⟨-, ⟨e, -, rfl⟩ | ⟨i, rest, -, hexec⟩⟩ := step_cases h
  · obtain ⟨k, op, d, htake, -⟩ := s.takeFetchException_eq e
    rw [htake]
    exact hs
  · rcases (exec_frame hexec).fl with hfl | ⟨-, x, y, hfl⟩
    · rwa [hfl]
    · rw [hfl]
      exact compareFlags_exclusive x y

/-! ### Memory -/

theorem exec_mem_wf (hm : s.mem.wf) (h : exec i s = .next t) : t.mem.wf := by
  rcases (exec_frame h).mem with hmem | ⟨c, v, -, hmem⟩
  · rwa [hmem]
  · rw [hmem]
    exact Memory.put_wf hm c.isLt v

/-! ### The pc -/

/-- The instruction fetched ends at an address of at most 256. -/
theorem pc_add_size_of_fetch {rest : List Byte} (hpc : s.pc ≤ 256) (h : fetch s = .ok (i, rest)) :
    s.pc + i.size ≤ 256 := by
  have hrange := s.mem.bytesFrom_length_range hpc maxInstrBytes
  rw [← encode_append_of_decode h, List.length_append] at hrange
  have hsize : (encode i).length = i.size := by rw [encode, List.length_cons, Instr.size, Nat.add_comm]
  omega

section
variable {op a b : Byte} {n : Nat} (hn : s.pc ≤ n)
include hn

theorem State.withReg_pc_le {f : Reg → State} (hf : ∀ r, (f r).pc ≤ n) : (s.withReg op a f).pc ≤ n :=
  State.withReg_of (P := fun t => t.pc ≤ n) (fun _ => hn) fun r _ => hf r

theorem State.withRegs_pc_le {f : Reg → Reg → State} (hf : ∀ ra rb, (f ra rb).pc ≤ n) :
    (s.withRegs op a b f).pc ≤ n :=
  s.withReg_pc_le hn fun ra => s.withReg_pc_le hn (hf ra)

end

/-- An instruction that fits below 256 leaves the pc there: it advances by its size, or goes to a byte, or keeps the pc. -/
theorem exec_pc_le (hsize : s.pc + i.size ≤ 256) (h : exec i s = .next t) : t.pc ≤ 256 := by
  have hpc : s.pc ≤ 256 := Nat.le_of_add_right_le hsize
  have hbyte (b : Byte) : b.toNat ≤ 256 := b.isLt.le
  cases i with
  | nop => cases h; exact hsize
  | hlt => cases h; exact hpc
  | ret | iret => cases h; exact hbyte _
  | jmp a | call a => cases h; exact s.withReg_pc_le hpc fun _ => hbyte _
  | jeq a | jne a | jgt a | jlt a | jle a | jge a =>
    cases h
    refine s.withReg_pc_le hpc fun ra => ?_
    split
    · exact hbyte _
    · exact hsize
  | div a b | mod a b =>
    cases h
    refine s.withRegs_pc_le hpc fun ra rb => ?_
    split <;> exact hsize
  | push a | pop a | prn a | pra a | int a | inc a | dec a | not a | ldi a imm =>
    cases h; exact s.withReg_pc_le hpc fun _ => hsize
  | ld a b | st a b | cmp a b | add a b | sub a b | mul a b | and a b | or a b | xor a b | shl a b | shr a b =>
    cases h; exact s.withRegs_pc_le hpc fun _ _ => hsize

/-! ### The halt reason -/

theorem State.takeException_haltAgrees {k : ExceptionKind} {op : Option Byte} {d : Detail}
    (h : FaultRecord.sound { kind := k, opcode := op, fpc := s.pc, detail := d }) :
    (s.takeException k op d).haltAgrees :=
  ⟨rfl, h, rfl⟩

/-- A fetch that ends in UnknownOpcode found the byte at the pc unlisted. -/
theorem unlisted_of_fetch {op : Byte} (h : fetch s = .error (.unknownOpcode op)) :
    s.mem.read? s.pc = some op ∧ lookupOpcode op = none := by
  have hop : s.mem.read? s.pc = some op := (opcode_of_fetch_error h).symm
  refine ⟨hop, Option.eq_none_iff_forall_ne_some.mpr fun row hrow => ?_⟩
  obtain ⟨-, hne⟩ := Format.decode_eq_error_iff.mp ((fetch_of_lookup_some hop hrow).symm.trans h)
  cases hne

theorem pc_lt_of_read? {op : Byte} (h : s.mem.read? s.pc = some op) : s.pc < 256 :=
  Nat.lt_of_not_le fun hge => by simp [Memory.read?_of_ge hge] at h

/-- The record of a failed fetch tells its cause: no byte at 256, an unlisted opcode, or an operand byte that would be at
256. -/
theorem takeFetchException_haltAgrees {e : DecodeError} (hpc : s.pc ≤ 256) (h : fetch s = .error e) :
    (s.takeFetchException e).haltAgrees := by
  cases e with
  | noOpcode =>
    have h256 : s.pc = 256 := hpc.antisymm (Memory.read?_eq_none_iff.mp (opcode_of_fetch_error h).symm)
    exact State.takeException_haltAgrees (Or.inl ⟨rfl, h256, congrArg Detail.address h256⟩)
  | unknownOpcode op =>
    obtain ⟨hop, hrow⟩ := unlisted_of_fetch h
    exact State.takeException_haltAgrees ⟨⟨op, rfl, hrow⟩, rfl, pc_lt_of_read? hop⟩
  | noOperand op k =>
    obtain ⟨⟨hop, row, hrow, -⟩, h256⟩ := fetch_eq_noOperand_iff.mp h
    exact State.takeException_haltAgrees
      (Or.inr ⟨op, rfl, by simp [hrow], pc_lt_of_read? hop, Or.inl (congrArg Detail.address h256)⟩)

/-- The operand reported as bad names no register. -/
theorem le_of_firstBadOperand {b : Byte} (h : i.firstBadOperand = some b) : 8 ≤ b.toNat := by
  simpa [validIndex_eq_false] using List.find?_some h

/-- An instruction that a RUNNING CORE executes leaves it RUNNING without a halt reason, or HALTED with HLT or a record that
tells its cause. -/
theorem exec_haltAgrees (hrun : s.run = .running) (hwhy : s.why = .none) (hsize : s.pc + i.size ≤ 256)
    (h : exec i s = .next t) : t.haltAgrees := by
  cases exec_runEffect h with
  | kept hsame =>
    obtain ⟨hrun', hwhy'⟩ := hsame
    rw [State.haltAgrees, hwhy', hwhy]
    exact hrun'.trans hrun
  | hlt _ ht => subst ht; rfl
  | badOperand b hb ht =>
    subst ht
    obtain ⟨row, hrow, -⟩ := Laws.OpcodeListed.all i
    have hpc : s.pc < 256 := by rw [Instr.size] at hsize; omega
    exact State.takeException_haltAgrees
      (Or.inr ⟨i.opcode, rfl, by simp [hrow], hpc, Or.inr ⟨b, rfl, le_of_firstBadOperand hb⟩⟩)
  | zeroDivisor ra rb hi _ ht =>
    subst ht
    rcases hi with rfl | rfl
    · exact State.takeException_haltAgrees ⟨Or.inl rfl, ⟨rb, rfl⟩, hsize⟩
    · exact State.takeException_haltAgrees ⟨Or.inr rfl, ⟨rb, rfl⟩, hsize⟩

/-- A RUNNING CORE whose halt reason agrees has none. -/
theorem State.haltAgrees.why_eq_none (h : s.haltAgrees) (hrun : s.run = .running) : s.why = .none := by
  cases hwhy : s.why with
  | none => rfl
  | hlt => simp [State.haltAgrees, hwhy, hrun] at h
  | fault r => simp [State.haltAgrees, hwhy, hrun] at h

/-- Settles O50: the parts of the invariant one by one, for a fetch that fails and for the instruction fetched. -/
theorem stepKeepsInvariant : Obligations.StepKeepsInvariant := by
  intro s t ⟨hmem, hpc, hhalt⟩ h
  obtain ⟨hrun, ⟨e, hfetch, rfl⟩ | ⟨i, rest, hfetch, hexec⟩⟩ := step_cases h
  · have hagrees := takeFetchException_haltAgrees hpc hfetch
    obtain ⟨k, op, d, htake, hkeeps⟩ := s.takeFetchException_eq e
    rw [htake] at hagrees ⊢
    exact ⟨hmem, hkeeps.trans_le hpc, hagrees⟩
  · have hsize := pc_add_size_of_fetch hpc hfetch
    have hwhy := hhalt.why_eq_none hrun
    exact ⟨exec_mem_wf hmem hexec, exec_pc_le hsize hexec, exec_haltAgrees hrun hwhy hsize hexec⟩

end Sys2Proof.Machine
end

section
/-! FL is read by the conditional jumps alone (10_state.md R31). -/

namespace Sys2Proof.Machine

/-- FL is untouched by every instruction but the conditional jumps and CMP. -/
theorem untouched_flags {i : Instr} (hjump : i.jumpsOnFlags = false) (hcmp : ∀ a b, i ≠ .cmp a b) (f : Flags) :
    Untouched i (fun s => s.setFlags f) where
  mem _ := rfl
  pc _ := rfl
  get _ _ _ := rfl
  setReg _ _ _ _ := rfl
  setMem _ _ _ := rfl
  advance _ _ := rfl
  jumpTo _ _ := rfl
  halt _ := rfl
  takeException _ _ _ _ := rfl
  fl h := absurd h (Bool.eq_false_iff.mp hjump)
  setFlags := fun ⟨a, b, h⟩ => absurd h (hcmp a b)
  emit _ _ _ _ := rfl

theorem exec_setFlags {i : Instr} (hjump : i.jumpsOnFlags = false) (hcmp : ∀ a b, i ≠ .cmp a b) {s t : State} (f : Flags)
    (h : exec i s = .next t) : exec i (s.setFlags f) = .next (t.setFlags f) := by
  obtain ⟨u, hu, hcarried⟩ := exec_of_untouched (untouched_flags hjump hcmp f) s
  obtain rfl : u = t := Host.Outcome.next.inj (hu.symm.trans h)
  exact hcarried

/-- A well-formed CMP overwrites FL before anything could read it. -/
theorem exec_cmp_setFlags {a b : Byte} (hwf : (Instr.cmp a b).wellFormed = true) (s : State) (f : Flags) :
    exec (.cmp a b) (s.setFlags f) = exec (.cmp a b) s := by
  have hbad := Instr.firstBadOperand_of_wellFormed hwf
  obtain ⟨ra, rfl⟩ := exists_toByte_of_mem_regOperands hbad (a := a) (by simp [Instr.regOperands])
  obtain ⟨rb, rfl⟩ := exists_toByte_of_mem_regOperands hbad (a := b) (by simp [Instr.regOperands])
  simp only [exec, execCmp, State.withRegs_toByte]
  rfl

/-- Settles O23: FL is carried through what does not touch it, and CMP overwrites it. -/
theorem flagsReadOnlyByConditionalJumps : Obligations.FlagsReadOnlyByConditionalJumps := by
  intro i s t f h
  cases i with
  | jeq _ | jne _ | jgt _ | jlt _ | jle _ | jge _ => trivial
  | cmp a b => exact fun hwf => (exec_cmp_setFlags hwf s f).trans h
  | _ => exact exec_setFlags rfl (by simp) f h

end Sys2Proof.Machine
end

section
/-! Laws over two and more instructions: DIV beside MOD (41_alu.md R135), RET after CALL (42_control_flow.md R171), POP after
PUSH and IRET after a built frame (43_stack_interrupt.md R193, R196), LD and the next fetch after ST (20_memory.md R60,
R63). -/

namespace Sys2Proof.Machine

/-! ### Division -/

/-- Settles O21: quotient and remainder are those of the words' values. -/
theorem divModReconstructsDividend : Obligations.DivModReconstructsDividend := by
  intro ra rb s hd
  have hdiv := s.aluDivide_ne_zero (.div ra.toByte rb.toByte) (Instr.opcode (.div ra.toByte rb.toByte)) ra rb
    (fun x y => x / y) hd
  have hmod := s.aluDivide_ne_zero (.mod ra.toByte rb.toByte) (Instr.opcode (.mod ra.toByte rb.toByte)) ra rb
    (fun x y => x % y) hd
  have hpos : 0 < (s.x.get rb).toNat := Nat.pos_of_ne_zero fun h0 => hd (BitVec.eq_of_toNat_eq h0)
  refine ⟨_, _, congrArg Host.Outcome.next hdiv, congrArg Host.Outcome.next hmod, ?_⟩
  simp only [State.advance_x, State.setReg_x, Regs.get_set_self, BitVec.toNat_udiv, BitVec.toNat_umod]
  exact ⟨(Nat.div_add_mod' _ _).symm, Nat.mod_lt _ hpos⟩

/-! ### Store, then load and fetch -/

theorem exec_st_toByte (ra rb : Reg) (s : State) :
    exec (.st ra.toByte rb.toByte) s = .next ((s.setMem (s.x.get ra) (s.x.get rb)).advance 3) :=
  congrArg Host.Outcome.next (s.withRegs_toByte _ ra rb _)

theorem exec_ld_toByte (ra rb : Reg) (s : State) :
    exec (.ld ra.toByte rb.toByte) s = .next ((s.setReg ra (s.mem.byteAt (s.x.get rb).toNat)).advance 3) :=
  congrArg Host.Outcome.next (s.withRegs_toByte _ ra rb _)

/-- Settles O46: ST leaves the address register, and LD reads the byte put there. -/
theorem storeThenLoadReads : Obligations.StoreThenLoadReads := by
  intro ra rb rc s hwf
  refine ⟨_, _, exec_st_toByte ra rb s, exec_ld_toByte rc ra _, ?_, rfl⟩
  simp only [State.advance_x, State.advance_mem, State.setReg_x, State.setMem_x, State.setMem_mem, Regs.get_set_self]
  exact Memory.byteAt_put_self hwf.1 _ _

/-- Settles O47: the bytes at the next pc are those of the instruction stored. -/
theorem storeSeenByNextFetch : Obligations.StoreSeenByNextFetch := by
  intro ra rb s i hwf hrun hpc hencode
  refine ⟨_, exec_st_toByte ra rb s, stepRunsInstructionAtPc _ i hrun fun k hk => ?_⟩
  obtain rfl : k = 0 := by simpa [hencode] using hk
  rw [hencode, State.advance_pc, State.setMem_pc, hpc]
  exact Memory.read?_put_self hwf _ _

/-! ### Push, then pop -/

theorem exec_push_toByte (ra : Reg) (s : State) :
    exec (.push ra.toByte) s = .next ((s.push fun t => t.x.get ra).advance 2) :=
  congrArg Host.Outcome.next (s.withReg_toByte _ ra _)

theorem exec_pop_toByte (ra : Reg) (s : State) : exec (.pop ra.toByte) s = .next ((s.popReg ra).advance 2) :=
  congrArg Host.Outcome.next (s.withReg_toByte _ ra _)

theorem exec_call_toByte (ra : Reg) (s : State) :
    exec (.call ra.toByte) s = .next ((s.push fun _ => s.returnByte).jumpTo ((s.push fun _ => s.returnByte).x.get ra)) :=
  congrArg Host.Outcome.next (s.withReg_toByte _ ra _)

/-- The byte pushed is at the SP that the push leaves. -/
theorem State.byteAt_push {s : State} (hwf : s.mem.wf) (value : State → Byte) :
    (s.push value).mem.byteAt ((s.push value).x.get .r7).toNat = value s.decSp := by
  rw [State.push_mem, State.push_x, Regs.get_set_self, Memory.byteAt_put_self hwf.1]

/-- A pop of the byte that a register held with SP decremented gives all registers back. -/
theorem State.popReg_x_of_push {s t : State} {r : Reg} (hx : t.x = s.x.set .r7 (s.x.get .r7 - 1#8))
    (hbyte : t.mem.byteAt (t.x.get .r7).toNat = t.x.get r) : (t.popReg r).x = s.x := by
  by_cases hr : r = .r7
  · subst hr
    rw [State.popReg_r7, hbyte, State.setReg_x, hx]
    simp
  · rw [State.popReg_ne t hr, hbyte, State.setReg_x, State.setReg_x, Regs.set_get_self, hx]
    simp

/-- Settles O33: POP reads the byte PUSH wrote, which is the register's value with SP decremented. -/
theorem pushThenPopRestores : Obligations.PushThenPopRestores := by
  intro ra s hwf
  refine ⟨_, _, exec_push_toByte ra s, exec_pop_toByte ra _, ?_, rfl, rfl, rfl, fun c hc => ?_⟩
  · exact State.popReg_x_of_push rfl (State.byteAt_push hwf fun t => t.x.get ra)
  · exact (exec_frame (exec_push_toByte ra s)).read?_eq fun d hd => hd ▸ hc

/-- Settles O29: RET pops the byte CALL pushed, `mod256(pc + 2)`, and leaves SP where it was before. -/
theorem callThenReturnResumes : Obligations.CallThenReturnResumes := by
  intro ra s hwf
  refine ⟨_, exec_call_toByte ra s, fun u hsp hbyte => ⟨_, rfl, ?_, ?_⟩⟩
  · rw [State.popPc_x, Regs.get_set_self, hsp, State.jumpTo_x, State.push_x, Regs.get_set_self, BitVec.sub_add_cancel]
  · rw [State.popPc_pc, hsp, hbyte, State.jumpTo_mem, State.jumpTo_x, State.byteAt_push hwf, State.returnByte,
      BitVec.toNat_ofNat]

/-! ### Pushes of several bytes, then a return from interrupt -/

/-- The bytes from SP upward, at addresses modulo 256, are `bs`. -/
def State.StackHolds (s : State) (bs : List Byte) : Prop :=
  ∀ k b, bs[k]? = some b → s.mem.byteAt (s.x.get .r7 + BitVec.ofNat 8 k).toNat = b

/-- A byte pushed, whatever the state is. -/
def State.pushByte (s : State) (v : Byte) : State := s.push fun _ => v

section
variable {s : State} {bs : List Byte}

/-- A push puts its byte in front of those the stack holds, as long as they do not fill memory. -/
theorem State.StackHolds.pushByte (h : s.StackHolds bs) (hwf : s.mem.wf) (hlen : bs.length < 256) (v : Byte) :
    (s.pushByte v).StackHolds (v :: bs) := by
  intro k b hk
  cases k with
  | zero =>
    rw [BitVec.add_zero, ← Option.some.inj hk]
    exact State.byteAt_push hwf _
  | succ k =>
    obtain ⟨hlt, -⟩ := List.getElem?_eq_some_iff.mp hk
    have hk255 : k + 1 < 256 := Nat.lt_of_lt_of_le hlt hlen
    have haddr : s.x.get .r7 - 1#8 + BitVec.ofNat 8 (k + 1) = s.x.get .r7 + BitVec.ofNat 8 k := by
      rw [BitVec.ofNat_add]
      ring
    have hne : (s.x.get .r7 + BitVec.ofNat 8 k).toNat ≠ (s.x.get .r7 - 1#8).toNat := by
      bv_omega
    rw [State.pushByte, State.push_x, Regs.get_set_self, haddr, State.push_mem, Memory.byteAt_put_ne _ hne]
    exact h k b hk

/-- Several pushes put their bytes in front in turn, the last one first. -/
theorem State.StackHolds.foldl_pushByte {pushed : List Byte} (h : s.StackHolds bs) (hwf : s.mem.wf)
    (hlen : bs.length + pushed.length ≤ 256) : (pushed.foldl State.pushByte s).StackHolds (pushed.reverse ++ bs) := by
  induction pushed generalizing s bs with
  | nil => exact h
  | cons v pushed ih =>
    rw [List.length_cons] at hlen
    rw [List.foldl_cons, List.reverse_cons, List.append_assoc, List.singleton_append]
    exact ih (h.pushByte hwf (by omega) v) (State.setMem_wf hwf _ _) (by rw [List.length_cons]; omega)

theorem State.foldl_pushByte_sp (s : State) (pushed : List Byte) :
    (pushed.foldl State.pushByte s).x.get .r7 = s.x.get .r7 - BitVec.ofNat 8 pushed.length := by
  induction pushed generalizing s with
  | nil => simp
  | cons v pushed ih =>
    rw [List.foldl_cons, ih, State.pushByte, State.push_x, Regs.get_set_self, List.length_cons, BitVec.ofNat_add]
    ring

/-- From an empty stack: the bytes pushed are found from SP upward, and adding their number to SP undoes the pushes. -/
theorem State.foldl_pushByte_frame (hwf : s.mem.wf) {pushed : List Byte} (hlen : pushed.length ≤ 256) :
    (pushed.foldl State.pushByte s).StackHolds pushed.reverse
      ∧ (pushed.foldl State.pushByte s).x.r7 + BitVec.ofNat 8 pushed.length = s.x.r7 := by
  refine ⟨?_, ?_⟩
  · have hempty : s.StackHolds [] := nofun
    simpa using hempty.foldl_pushByte (pushed := pushed) hwf (by simpa using hlen)
  · exact (congrArg (· + _) (s.foldl_pushByte_sp pushed)).trans (BitVec.sub_add_cancel _ _)

end

/-! IRET on a frame of R0 to R6, of the registers `x`, above the bytes `rest`. -/

section
variable {t : State} {x : Regs} {ret flags : Byte} {rest : List Byte}

theorem State.restoreRegs_of_stackHolds (h : t.StackHolds ([x.r6, x.r5, x.r4, x.r3, x.r2, x.r1, x.r0] ++ rest)) :
    restoreOrder.foldl State.popReg t = { t with x := { x with r7 := t.x.r7 + 7#8 } } := by
  have h0 : t.mem.byteAt t.x.r7.toNat = x.r6 := by simpa [Regs.get] using h 0 x.r6 rfl
  have h1 : t.mem.byteAt (t.x.r7 + 1#8).toNat = x.r5 := h 1 _ rfl
  have h2 : t.mem.byteAt (t.x.r7 + 2#8).toNat = x.r4 := h 2 _ rfl
  have h3 : t.mem.byteAt (t.x.r7 + 3#8).toNat = x.r3 := h 3 _ rfl
  have h4 : t.mem.byteAt (t.x.r7 + 4#8).toNat = x.r2 := h 4 _ rfl
  have h5 : t.mem.byteAt (t.x.r7 + 5#8).toNat = x.r1 := h 5 _ rfl
  have h6 : t.mem.byteAt (t.x.r7 + 6#8).toNat = x.r0 := h 6 _ rfl
  rw [t.restoreRegs_eq, h0, h1, h2, h3, h4, h5, h6]

theorem State.returnFromInterrupt_false_of_stackHolds
    (h : t.StackHolds ([x.r6, x.r5, x.r4, x.r3, x.r2, x.r1, x.r0] ++ [ret])) (hsp : t.x.r7 + 8#8 = x.r7) :
    t.returnFromInterrupt false = { t with x := x, pc := ret.toNat } := by
  have hx : t.x.r7 + 7#8 + 1#8 = x.r7 := (BitVec.add_assoc _ _ _).trans hsp
  have hregs := State.restoreRegs_of_stackHolds h
  calc t.returnFromInterrupt false
    _ = State.popPc { t with x := { x with r7 := t.x.r7 + 7#8 } } := congrArg State.popPc hregs
    _ = _ := State.popPc_of_byteAt (h 7 ret rfl) (congrArg (fun v => { x with r7 := v }) hx)

theorem State.returnFromInterrupt_true_of_stackHolds
    (h : t.StackHolds ([x.r6, x.r5, x.r4, x.r3, x.r2, x.r1, x.r0] ++ [flags, ret])) (hsp : t.x.r7 + 9#8 = x.r7) :
    t.returnFromInterrupt true = { t with x := x, fl := Flags.unpack flags, pc := ret.toNat } := by
  have h8 : t.x.r7 + 7#8 + 1#8 = t.x.r7 + 8#8 := BitVec.add_assoc _ _ _
  have hx : t.x.r7 + 8#8 + 1#8 = x.r7 := (BitVec.add_assoc _ _ _).trans hsp
  have hregs := State.restoreRegs_of_stackHolds h
  calc t.returnFromInterrupt true
    _ = (State.popFlags { t with x := { x with r7 := t.x.r7 + 7#8 } }).popPc :=
      congrArg (fun u => u.popFlags.popPc) hregs
    _ = State.popPc { t with x := { x with r7 := t.x.r7 + 8#8 }, fl := Flags.unpack flags } :=
      congrArg State.popPc (State.popFlags_of_byteAt (h 7 flags rfl) (congrArg (fun v => { x with r7 := v }) h8))
    _ = _ := State.popPc_of_byteAt (h 8 ret rfl) (congrArg (fun v => { x with r7 := v }) hx)

end

/-- Settles O38: the frame built is what IRET pops, byte by byte, and as many bytes as were pushed. -/
theorem iretUndoesBuiltFrame : Obligations.IretUndoesBuiltFrame := by
  intro s ret flags hwf pushByte saved built builtFl
  obtain ⟨hholds, hsp⟩ := State.foldl_pushByte_frame hwf (pushed := ret :: saved) (by simp [saved])
  obtain ⟨hholdsFl, hspFl⟩ := State.foldl_pushByte_frame hwf (pushed := ret :: flags :: saved) (by simp [saved])
  exact ⟨congrArg Host.Outcome.next (State.returnFromInterrupt_false_of_stackHolds hholds hsp),
    State.returnFromInterrupt_true_of_stackHolds hholdsFl hspFl⟩

end Sys2Proof.Machine
end

section
/-! The host's interface (00_scope.md R7, 40_cycle.md R108, 70_reset_and_hazards.md R272): loading a program, and the run
loop cut off after a number of steps. -/

namespace Sys2Proof.Machine

/-- Settles O55: a program that fits is put byte by byte, which keeps the canonical form. -/
theorem programLoadsFromZero : Obligations.ProgramLoadsFromZero := by
  refine fun p s hwf => ⟨fun hlen => ?_, fun hlen => if_neg (Nat.not_le_of_lt hlen)⟩
  have hload : hostLoadProgram s p = some (s.putBytes 0 p) := hostLoadProgram_eq_some.mpr ⟨hlen, rfl⟩
  obtain ⟨hprogram, hrest⟩ := read?_of_hostLoadProgram hwf hload
  exact ⟨_, hload, hprogram, hrest, s.putBytes_eq_mem 0 p, State.putBytes_wf hwf 0 p⟩

/-! ### The run loop -/

variable {s t : State} {r : RunResult} {n : Nat}

/-- HALTED with the reason that the result `r` reports. -/
def State.HaltedWith (t : State) (r : RunResult) : Prop :=
  t.run = .halted ∧ ((t.why = .hlt ∧ r = .success) ∨ ∃ f, t.why = .fault f ∧ r = .fault f)

theorem State.result_eq_some_iff : t.result = some r ↔ t.HaltedWith r := by
  cases hrun : t.run <;> cases hwhy : t.why <;> simp [State.result, State.HaltedWith, hrun, hwhy, eq_comm]

theorem hostSteps_succ_of_step (h : step s = .next t) (n : Nat) : hostSteps (n + 1) s = hostSteps n t := by
  simp only [hostSteps, h]

theorem hostSteps_succ_of_halted (h : s.run = .halted) (n : Nat) : hostSteps (n + 1) s = none := by
  simp only [hostSteps, step_of_halted h]

theorem hostRun_succ_of_step (h : step s = .next t) (n : Nat) : hostRun (n + 1) s = hostRun n t := by
  simp only [hostRun, h]

theorem hostRun_succ_of_halted (h : s.run = .halted) (n : Nat) : hostRun (n + 1) s = s.result := by
  simp only [hostRun, step_of_halted h]

/-- A HALTED CORE is reached from itself in no steps and reaches nothing else. -/
theorem exists_hostSteps_iff_of_halted (h : s.run = .halted) {P : State → Prop} :
    (∃ k t, k ≤ n ∧ hostSteps k s = some t ∧ P t) ↔ P s := by
  constructor
  · rintro ⟨k, t, -, hsteps, ht⟩
    cases k with
    | zero => exact Option.some.inj hsteps ▸ ht
    | succ k => simp [hostSteps_succ_of_halted h] at hsteps
  · exact fun hs => ⟨0, s, Nat.zero_le n, rfl, hs⟩

/-- A run returns exactly what some number of steps within its bound reaches. -/
theorem hostRun_eq_some_iff :
    hostRun n s = some r ↔ ∃ k t, k ≤ n ∧ hostSteps k s = some t ∧ t.HaltedWith r := by
  induction n generalizing s with
  | zero =>
    refine State.result_eq_some_iff.trans ⟨fun h => ⟨0, s, le_rfl, rfl, h⟩, ?_⟩
    rintro ⟨k, t, hk, hsteps, ht⟩
    obtain rfl := Nat.le_zero.mp hk
    exact Option.some.inj hsteps ▸ ht
  | succ n ih =>
    cases hrun : s.run with
    | halted =>
      rw [hostRun_succ_of_halted hrun, State.result_eq_some_iff, exists_hostSteps_iff_of_halted hrun]
    | running =>
      obtain ⟨u, hu⟩ := (stepExistsOnlyWhileRunning s).1 hrun
      rw [hostRun_succ_of_step hu, ih]
      constructor
      · rintro ⟨k, t, hk, hsteps, ht⟩
        exact ⟨k + 1, t, Nat.succ_le_succ hk, (hostSteps_succ_of_step hu k).trans hsteps, ht⟩
      · rintro ⟨k, t, hk, hsteps, ht⟩
        cases k with
        | zero =>
          obtain rfl := Option.some.inj hsteps
          simp [State.HaltedWith, hrun] at ht
        | succ k => exact ⟨k, t, Nat.le_of_succ_le_succ hk, (hostSteps_succ_of_step hu k).symm.trans hsteps, ht⟩

/-- Settles O56: a halted state that is reached within `n` steps is reached within more. -/
theorem runReturnsAtHalt : Obligations.RunReturnsAtHalt := by
  refine fun s n r => ⟨hostRun_eq_some_iff, fun m h => ?_⟩
  obtain ⟨k, t, hk, hreached⟩ := hostRun_eq_some_iff.mp h
  exact hostRun_eq_some_iff.mpr ⟨k, t, Nat.le_add_right_of_le hk, hreached⟩

end Sys2Proof.Machine
end

section
/-! The parameters (00_scope.md R6): the step for any `OPCODE_MAP`, `INT_RECORD` and `IRET_RESTORES_FL`, and where each of
them acts. -/

namespace Sys2Proof.Machine

variable {s : State} {p : Params} {i : Instr} {op : Byte}

/-! ### The step -/

theorem stepWith_of_fetch_ok {rest : List Byte} (hrun : s.run = .running) (h : fetch s p.opcodeMap = .ok (i, rest)) :
    stepWith s p = execWith i s s.fetchedOpcode p := by
  simp only [stepWith, hrun, h]

theorem stepWith_of_fetch_error {e : DecodeError} (hrun : s.run = .running) (h : fetch s p.opcodeMap = .error e) :
    stepWith s p = .next (s.takeFetchException e) := by
  simp only [stepWith, hrun, h]

theorem stepWith_of_halted (h : s.run = .halted) : stepWith s p = .fault .halted := by
  simp only [stepWith, h]

theorem fetchedOpcode_of_read? (h : s.mem.read? s.pc = some op) : s.fetchedOpcode = op := by
  rw [Memory.read?_of_lt (pc_lt_of_read? h)] at h
  exact Option.some.inj h

/-- Settles O59: the bytes at the pc decode by the renamed table, and the opcode recorded is the byte fetched. -/
theorem stepUnderAnyParameters : Obligations.StepUnderAnyParameters := by
  intro p f hf hmap s
  refine ⟨fun hrun => ⟨fun i hbytes => ?_, fun op hop hunlisted => ?_⟩, fun hhalted t => ?_⟩
  · have hlen : (f i.opcode :: i.operandBytes).length = i.size := by rw [List.length_cons, Instr.size, Nat.add_comm]
    have hle : (f i.opcode :: i.operandBytes).length ≤ maxInstrBytes := encode_length_le i
    have hopcode : s.mem.read? s.pc = some (f i.opcode) := hbytes 0 (hlen ▸ Nat.succ_pos _)
    have hfetch : ∃ rest, fetch s p.opcodeMap = .ok (i, rest) := by
      rw [fetch, hmap, Memory.bytesFrom_eq_append hle fun k hk => hbytes k (hlen ▸ hk)]
      exact ⟨_, decode_renamedTable_append hf i _⟩
    obtain ⟨rest, hfetch⟩ := hfetch
    rw [stepWith_of_fetch_ok hrun hfetch, fetchedOpcode_of_read? hopcode]
  · refine stepWith_of_fetch_error (e := .unknownOpcode op) hrun ?_
    rw [fetch, hmap, maxInstrBytes, Memory.bytesFrom_succ_some hop]
    exact decode_renamedTable_unknown hunlisted _
  · simp [stepWith_of_halted hhalted]

/-- The parameterised step at the defaults is `step`: the opcode recorded is that of the instruction fetched. -/
theorem stepWith_default (s : State) : stepWith s = step s := by
  cases hrun : s.run with
  | halted => rw [stepWith_of_halted hrun, step_of_halted hrun]
  | running =>
    rcases hfetch : fetch s with e | ⟨i, rest⟩
    · rw [stepWith_of_fetch_error hrun hfetch, step_of_fetch_error hrun hfetch]
    · rw [stepWith_of_fetch_ok hrun hfetch, step_of_fetch_ok hrun hfetch, fetchedOpcode_of_read? (read?_of_fetch hfetch),
        execWith_default]

/-! ### The dispatch -/

/-- A bad register operand faults with the opcode byte fetched, whatever the parameters are. -/
theorem execWith_of_firstBadOperand (s : State) (op : Byte) (p : Params) {b : Byte} (h : i.firstBadOperand = some b) :
    execWith i s op p = .next (s.takeException .addressingFault (some op) (.registerIndex b)) := by
  cases i with
  | nop | hlt | ret | iret => cases h
  | push a | pop a | prn a | pra a | call a | int a | jmp a | jeq a | jne a | jgt a | jlt a | jle a | jge a
  | inc a | dec a | not a | ldi a imm => exact congrArg Host.Outcome.next (s.withReg_firstBad op h _)
  | ld a c | st a c | add a c | sub a c | mul a c | div a c | mod a c | cmp a c
  | and a c | or a c | xor a c | shl a c | shr a c => exact congrArg Host.Outcome.next (s.withRegs_firstBad op h _)

/-! With no bad operand, the opcode byte that a fault would record makes no difference. An operand's membership is found by
`simp` where `i` is a constructor. -/

section
variable (s) {a b : Byte} (hbad : i.firstBadOperand = none) (op op' : Byte)
include hbad

theorem State.withReg_any_opcode (f : Reg → State) (ha : a ∈ i.regOperands := by simp [Instr.regOperands]) :
    s.withReg op a f = s.withReg op' a f := by
  obtain ⟨ra, rfl⟩ := exists_toByte_of_mem_regOperands hbad ha
  rw [s.withReg_toByte, s.withReg_toByte]

theorem State.withRegs_any_opcode (f : Reg → Reg → State) (ha : a ∈ i.regOperands := by simp [Instr.regOperands])
    (hb : b ∈ i.regOperands := by simp [Instr.regOperands]) : s.withRegs op a b f = s.withRegs op' a b f := by
  obtain ⟨ra, rfl⟩ := exists_toByte_of_mem_regOperands hbad ha
  obtain ⟨rb, rfl⟩ := exists_toByte_of_mem_regOperands hbad hb
  rw [s.withRegs_toByte, s.withRegs_toByte]

theorem State.aluDivide_any_opcode (f : Byte → Byte → Byte) (hdivisor : ∀ rb : Reg, b = rb.toByte → s.x.get rb ≠ 0#8)
    (ha : a ∈ i.regOperands := by simp [Instr.regOperands]) (hb : b ∈ i.regOperands := by simp [Instr.regOperands]) :
    s.aluDivide i a b f op = s.aluDivide i a b f op' := by
  obtain ⟨ra, rfl⟩ := exists_toByte_of_mem_regOperands hbad ha
  obtain ⟨rb, rfl⟩ := exists_toByte_of_mem_regOperands hbad hb
  rw [s.aluDivide_ne_zero i op ra rb f (hdivisor rb rfl), s.aluDivide_ne_zero i op' ra rb f (hdivisor rb rfl)]

end

/-- An instruction that faults on no operand and reads no parameter does what it does at the defaults. -/
theorem execWith_eq_exec (s : State) (op : Byte) (p : Params) (hbad : i.firstBadOperand = none) (hint : ∀ a, i ≠ .int a)
    (hiret : i ≠ .iret)
    (hdivisor : ∀ (a : Byte) (rb : Reg), i = .div a rb.toByte ∨ i = .mod a rb.toByte → s.x.get rb ≠ 0#8) :
    execWith i s op p = exec i s := by
  cases i with
  | nop | hlt | ret => rfl
  | iret => exact absurd rfl hiret
  | int a => exact absurd rfl (hint a)
  | div a b =>
    exact congrArg Host.Outcome.next (s.aluDivide_any_opcode hbad _ _ _ fun rb hb => hdivisor a rb (Or.inl (hb ▸ rfl)))
  | mod a b =>
    exact congrArg Host.Outcome.next (s.aluDivide_any_opcode hbad _ _ _ fun rb hb => hdivisor a rb (Or.inr (hb ▸ rfl)))
  | push a | pop a | prn a | pra a | call a | jmp a | jeq a | jne a | jgt a | jlt a | jle a | jge a | inc a | dec a | not a
  | ldi a imm => exact congrArg Host.Outcome.next (s.withReg_any_opcode hbad _ _ _)
  | ld a b | st a b | cmp a b | add a b | sub a b | mul a b | and a b | or a b | xor a b | shl a b | shr a b =>
    exact congrArg Host.Outcome.next (s.withRegs_any_opcode hbad _ _ _)

/-- Settles O60: INT and IRET take their parameter, faults take the opcode byte, and nothing else depends on either. -/
theorem parametersActOnlyWhereNamed : Obligations.ParametersActOnlyWhereNamed := by
  refine ⟨stepWith_default, fun s op p => ⟨fun r => ?_, rfl, fun i b hb => execWith_of_firstBadOperand s op p hb,
    fun i ra rb hi hzero => ?_, fun i hwf => execWith_eq_exec s op p (Instr.firstBadOperand_of_wellFormed hwf)⟩⟩
  · exact congrArg Host.Outcome.next (s.withReg_toByte op r _)
  · obtain rfl | rfl := hi <;> exact congrArg Host.Outcome.next (s.aluDivide_zero _ op ra rb _ hzero)

end Sys2Proof.Machine
end
